-- ==== Sys2Proof/Word.lean ====
section
/-! DEFINITION. The one word of the machine: a byte (spec/00_scope.md R7, R9).

Registers, memory cells, opcodes, operand bytes and output items are all bytes. Addresses and the
program counter are natural numbers, because the spec never reduces them (10_state.md R28). -/

namespace Sys2Proof

/-- An 8-bit value, bit 0 least significant (R7, R9). All values are unsigned. -/
abbrev Byte := BitVec 8

end Sys2Proof
end

