-- ==== Sys2Proof/Config.lean ====
section
/-! DEFINITION. What is fixed for the machine, and the launch parameters (spec/00_scope.md R7, R8;
10_state.md R41). -/

namespace Sys2Proof

namespace Config

/-- Number of memory cells (R7, R33). -/
def memSize : Nat := 256

/-- Index of the stack pointer register (R7, R21). -/
abbrev spIndex : Fin 8 := 7

/-- Value of the stack pointer at reset (R7, R40). -/
def spReset : Byte := 0xF4

/-- `MEM_FILL`, the value of a cell that the image does not cover (R40, R65; 92_eei_decisions.md D3). -/
def memFill : Byte := 0x00

/-- `UNKNOWN_OPCODE_POLICY` (R8; 92_eei_decisions.md D1). -/
inductive UnknownOpcodePolicy where
  /-- an unknown opcode raises `UnknownOpcode` (R106) -/
  | strictFault
  /-- an unknown opcode is skipped as a one-byte no-op (R105) -/
  | legacySkip
  deriving DecidableEq, Repr

/-- The policy that the spec takes by default (R8, D1). -/
def defaultPolicy : UnknownOpcodePolicy := .strictFault

/-- DESIGN CHOICE (unsafe, log entry 1): the value of R0 to R6 in `State.reset`, where the spec leaves
`REG_INIT` open (R40, D4). `State.launch` takes any other. -/
def regInitDefault : Byte := 0x00

end Config

end Sys2Proof
end

