-- ==== Sys2Proof/Syntax.lean ====
section
/-! DEFINITION. The instructions, one constructor per row of spec/opcode_table.json (spec/30_encoding.md R75).

A register operand is a whole byte: 8 to 255 are encodable and are not a decode error (R73), so the
constructors carry bytes and not register indices. -/

namespace Sys2Proof

/-- The six instructions (R2, R75). -/
inductive Instr where
  /-- `HALT` (44_halt.md R150) -/
  | halt
  /-- `PUSH ra` (43_stack.md R140) -/
  | push (ra : Byte)
  /-- `POP ra` (43_stack.md R141) -/
  | pop (ra : Byte)
  /-- `PRN ra`, also `PRINT_REG ra` (41_register_io.md R121) -/
  | prn (ra : Byte)
  /-- `LDI ra, imm`, also `SAVE ra, imm` (41_register_io.md R120) -/
  | ldi (ra imm : Byte)
  /-- `MULT ra, rb` (42_alu.md R135) -/
  | mult (ra rb : Byte)
  deriving DecidableEq, Repr

end Sys2Proof
end

