-- ==== Sys2Proof/WellFormed.lean ====
section
/-! DEFINITION. Which instructions name only registers that exist, and how those are spelled
(spec/30_encoding.md R73, R81; 70_reset_and_hazards.md R195 (b)).

Every value of `Instr` has an encoding and a meaning. A well-formed one is an instruction that the
assembly syntax of R81 can spell: each register operand is R0 to R7. The others are the forms that
raise `InvalidRegister` when they run. -/

namespace Sys2Proof

/-- A register operand names one of R0 to R7 (R73). -/
def namesRegister (r : Byte) : Bool := decide (r.toNat < 8)

/-- Every register operand is 0 to 7 (R195 (b)). -/
def Instr.wellFormed : Instr → Bool
  | .halt => true
  | .push ra => namesRegister ra
  | .pop ra => namesRegister ra
  | .prn ra => namesRegister ra
  | .ldi ra _ => namesRegister ra
  | .mult ra rb => namesRegister ra && namesRegister rb

/-- The spelling of a register operand, none for 8 to 255 (R13, R81). -/
def registerSpelling (r : Byte) : Option String :=
  if namesRegister r then some ("R" ++ toString r.toNat) else none

/-- The assembly line of an instruction, in the primary mnemonics (R13, R16, R81). -/
def Instr.assembly : Instr → Option String
  | .halt => some "HALT"
  | .push ra => (registerSpelling ra).map ("PUSH " ++ ·)
  | .pop ra => (registerSpelling ra).map ("POP " ++ ·)
  | .prn ra => (registerSpelling ra).map ("PRN " ++ ·)
  | .ldi ra imm => (registerSpelling ra).map fun r => "LDI " ++ r ++ ", " ++ toString imm.toNat
  | .mult ra rb =>
    match registerSpelling ra, registerSpelling rb with
    | some a, some b => some ("MULT " ++ a ++ ", " ++ b)
    | _, _ => none

end Sys2Proof
end

