-- ==== Sys2Proof/Decode.lean ====
section
/-! DEFINITION. The opcode table, the decoder and the encoder (spec/30_encoding.md R70 to R80). -/

namespace Sys2Proof

/-! ### Opcode bytes (R75) -/

def Opcode.halt : Byte := 0x01
def Opcode.push : Byte := 0x45
def Opcode.pop : Byte := 0x46
def Opcode.prn : Byte := 0x47
def Opcode.ldi : Byte := 0x82
def Opcode.mult : Byte := 0xA2

/-- `op[7:6]`, the number of operand bytes of a known opcode (R9, R70, R71). -/
def operandCount (op : Byte) : Nat := op.toNat >>> 6

/-- Why bytes are no instruction. -/
inductive DecodeError where
  /-- there is no opcode byte at all -/
  | noOpcode
  /-- the opcode byte is not in the table (R77) -/
  | unknownOpcode (op : Byte)
  /-- operand byte `k` (1 or 2) is missing -/
  | missingOperand (k : Nat)
  deriving DecidableEq, Repr

/-- The four formats (R72), each with the instruction it makes of its operand bytes. -/
inductive Layout where
  | f0 (i : Instr)
  | f1r (mk : (ra : Byte) → Instr)
  | f2rr (mk : (ra rb : Byte) → Instr)
  | f2ri (mk : (ra imm : Byte) → Instr)

/-- A row of the opcode table (R75). -/
structure OpcodeRow where
  opcode : Byte
  mnemonic : String
  layout : Layout

/-- The opcode table, a constant (R34, R75). -/
def opcodeTable : List OpcodeRow := [
  ⟨Opcode.halt, "HALT", .f0 .halt⟩,
  ⟨Opcode.push, "PUSH", .f1r .push⟩,
  ⟨Opcode.pop, "POP", .f1r .pop⟩,
  ⟨Opcode.prn, "PRN", .f1r .prn⟩,
  ⟨Opcode.ldi, "LDI", .f2ri .ldi⟩,
  ⟨Opcode.mult, "MULT", .f2rr .mult⟩]

/-- The table's row for an opcode byte, by the whole byte (R75, R102); none for an unknown opcode. -/
def lookupOpcode (op : Byte) : Option OpcodeRow :=
  opcodeTable.find? fun row => row.opcode == op

/-- The operand bytes of a format taken in increasing address order (R55, R72). Any byte will do (R73, R74). -/
def Layout.takeOperands : Layout → List Byte → Except DecodeError (Instr × List Byte)
  | .f0 i, rest => .ok (i, rest)
  | .f1r _, [] => .error (.missingOperand 1)
  | .f1r mk, ra :: rest => .ok (mk ra, rest)
  | .f2rr _, [] => .error (.missingOperand 1)
  | .f2rr _, [_] => .error (.missingOperand 2)
  | .f2rr mk, ra :: rb :: rest => .ok (mk ra rb, rest)
  | .f2ri _, [] => .error (.missingOperand 1)
  | .f2ri _, [_] => .error (.missingOperand 2)
  | .f2ri mk, ra :: imm :: rest => .ok (mk ra imm, rest)

/-- The instruction at the front of a list of bytes, with the bytes after it (R70 to R75). -/
def decode : List Byte → Except DecodeError (Instr × List Byte)
  | [] => .error .noOpcode
  | op :: rest =>
    match lookupOpcode op with
    | none => .error (.unknownOpcode op)
    | some row => row.layout.takeOperands rest

/-! ### The encoder -/

/-- The opcode byte of an instruction (R75). -/
def Instr.opcode : Instr → Byte
  | .halt => Opcode.halt
  | .push _ => Opcode.push
  | .pop _ => Opcode.pop
  | .prn _ => Opcode.prn
  | .ldi _ _ => Opcode.ldi
  | .mult _ _ => Opcode.mult

/-- The operand bytes of an instruction, first operand first (R72). -/
def Instr.operands : Instr → List Byte
  | .halt => []
  | .push ra => [ra]
  | .pop ra => [ra]
  | .prn ra => [ra]
  | .ldi ra imm => [ra, imm]
  | .mult ra rb => [ra, rb]

/-- The bytes of an instruction in memory order (R70, R81). -/
def encode (i : Instr) : List Byte := i.opcode :: i.operands

/-- The length of the longest instruction (R70, R78). -/
def maxLength : Nat := 3

/-! ### The opcode table's own numbering of bits -/

/-- The bytes of an instruction whose bits are `w`, the first byte in bits 7 to 0, with every bit
from `nbits` up zero, as many bytes as the longest instruction has. -/
def tableBytes (nbits w : Nat) : List Byte :=
  let v := w % 2 ^ nbits
  [BitVec.ofNat 8 v, BitVec.ofNat 8 (v >>> 8), BitVec.ofNat 8 (v >>> 16)]

/-- The instruction that the decoder reads from the word `w` of the opcode table. -/
def decodeTableWord (nbits w : Nat) : Option Instr :=
  match decode (tableBytes nbits w) with
  | .ok (i, _) => some i
  | .error _ => none

end Sys2Proof
end

