-- ==== Sys2Proof/Machine/State.lean ====
section
/-! DEFINITION. The state of the core, as spec/10_state.md lists it, the state at reset, and the reasons a
step can stop. -/

namespace Sys2Proof.Machine

/-- Memory as (address, byte) pairs: addresses strictly rising, no entry equal to `Config.memFill`, which
is what an unlisted address holds (R33, R65). `Memory.wf` says that the form holds. -/
abbrev Memory := List Host.Cell

/-- The run state (R30). -/
inductive RunState where
  | running
  | halted
  | faulted
  deriving DecidableEq, Repr

/-- The four error kinds, each with the offending value that the fault record keeps (R31, R160). -/
inductive CoreError where
  /-- memory access outside 0 to 255; the address (R161) -/
  | invalidAddress (address : Nat)
  /-- register index outside 0 to 7; the index (R162) -/
  | invalidRegister (index : Byte)
  /-- an operation the ALU does not implement; the selector (R163) -/
  | unsupportedALUOperation (selector : BitVec 2)
  /-- an unknown opcode under `StrictFault`; the opcode byte (R164) -/
  | unknownOpcode (opcode : Byte)
  deriving DecidableEq, Repr

/-- The fault record: the error with its offending value, and `pc` at the start of the faulting cycle (R31). -/
structure FaultRecord where
  error : CoreError
  pc : Nat
  deriving DecidableEq, Repr

/-- The state of the core. -/
structure State where
  /-- R0 to R7, R7 the stack pointer (R20, R21) -/
  regs : Vector Byte 8
  /-- the program counter, a natural number that is never reduced (R28) -/
  pc : Nat
  /-- the 256 memory cells (R33) -/
  mem : Memory
  /-- R30 -/
  runState : RunState
  /-- empty unless the run state is `FAULTED` (R31) -/
  faultRecord : Option FaultRecord
  /-- the output stream, oldest byte first (R36) -/
  output : List Byte
  /-- `UNKNOWN_OPCODE_POLICY`, the launch's configuration (R41). DESIGN CHOICE (safe, log entry 2): kept here,
  since a step takes only a state; no step changes it. -/
  policy : Config.UnknownOpcodePolicy
  deriving DecidableEq, Repr

/-- Why there is no next state. The errors of the core are not here: taking one is a next state, `FAULTED`
(R170; log entry 4). -/
inductive Fault where
  /-- `step` in `HALTED`: no cycle runs there (R100, R151). Safe (log entry 3). -/
  | noCycleInHalted
  /-- `step` in `FAULTED`: no cycle runs there (R100, R171). Safe (log entry 3). -/
  | noCycleInFaulted
  deriving DecidableEq, Repr

/-- Why an instruction has no meaning. -/
inductive Refusal where
  /-- the arm of an instruction without a meaning, by its mnemonic. Safe; no arm of this model raises it. -/
  | notModelled (mnemonic : String)
  deriving DecidableEq, Repr

/-- The machine right after reset with nothing loaded (R40). R0 to R6 are `Config.regInitDefault`, a DESIGN
CHOICE (unsafe, log entry 1); the policy is the spec's default (R8). -/
def State.reset : State where
  regs := #v[Config.regInitDefault, Config.regInitDefault, Config.regInitDefault, Config.regInitDefault,
    Config.regInitDefault, Config.regInitDefault, Config.regInitDefault, Config.spReset]
  pc := 0
  mem := []
  runState := .running
  faultRecord := none
  output := []
  policy := Config.defaultPolicy

end Sys2Proof.Machine
end

