-- ==== Sys2Proof/Machine/Ops.lean ====
section
/-! DEFINITION. The named operations over memory, registers and the run state: the pseudocode primitives of
spec/00_scope.md R10, the raise of 60_exceptions.md R170 and the advance of 40_cycle.md R104. -/

namespace Sys2Proof.Machine

/-! ### Memory -/

/-- The byte at an address; an unlisted address holds `MEM_FILL` (R65). -/
def Memory.read : Memory → Nat → Byte
  | [], _ => Config.memFill
  | (b, v) :: rest, a => if a = b then v else Memory.read rest a

/-- A cell put at its place in the rising order. -/
def Memory.insertCell (a : Nat) (v : Byte) : Memory → Memory
  | [] => [(a, v)]
  | (b, w) :: rest => if a < b then (a, v) :: (b, w) :: rest else (b, w) :: Memory.insertCell a v rest

/-- `Mem[a] <- v`, which lists no cell equal to `MEM_FILL`. -/
def Memory.write (m : Memory) (a : Nat) (v : Byte) : Memory :=
  let cleared := m.filter fun c => c.1 ≠ a
  if v = Config.memFill then cleared else Memory.insertCell a v cleared

/-- The canonical form: addresses in 0 to 255 and strictly rising, no cell equal to `MEM_FILL`. -/
def Memory.wf : Memory → Bool
  | [] => true
  | (a, v) :: rest =>
    decide (a < Config.memSize) && decide (v ≠ Config.memFill) && rest.all (fun c => decide (a < c.1))
      && Memory.wf rest

/-- Bytes written at increasing addresses from `a` (R193); an address outside memory is passed over. -/
def Memory.load (m : Memory) (a : Nat) : List Byte → Memory
  | [] => m
  | b :: bytes => Memory.load (if a < Config.memSize then m.write a b else m) (a + 1) bytes

/-- `MemRead(a, 1)` (R51). -/
def State.memRead (s : State) (a : Nat) : Except CoreError Byte :=
  if a < Config.memSize then .ok (s.mem.read a) else .error (.invalidAddress a)

/-- `MemWrite(a, 1, v)` (R52). -/
def State.memWrite (s : State) (a : Nat) (v : Byte) : Except CoreError State :=
  if a < Config.memSize then .ok { s with mem := s.mem.write a v } else .error (.invalidAddress a)

/-! ### Registers -/

/-- The value of a register that exists (R20). -/
def State.getReg (s : State) (r : Fin 8) : Byte := s.regs[r]

/-- A register that exists set to a byte (R20, R23). -/
def State.setReg (s : State) (r : Fin 8) (v : Byte) : State :=
  { s with regs := s.regs.set r.val v r.isLt }

/-- The stack pointer, R7 (R21). -/
def State.sp (s : State) : Byte := s.getReg Config.spIndex

/-- The stack pointer set (R21). -/
def State.setSp (s : State) (v : Byte) : State := s.setReg Config.spIndex v

/-- The stack pointer after a decrement, modulo 256 (R26). -/
def spDecremented (v : Byte) : Byte := v + 255

/-- The stack pointer after an increment, modulo 256 (R26). -/
def spIncremented (v : Byte) : Byte := v + 1

/-! ### Output, halting, errors and the end of a cycle -/

/-- `emit(v)` (R36). -/
def State.emit (s : State) (v : Byte) : State := { s with output := s.output ++ [v] }

/-- `state <- HALTED` (R150). -/
def State.halt (s : State) : State := { s with runState := .halted }

/-- Taking an error in a cycle that began in `s` (R110, R170): nothing of the cycle is kept, `pc` stays at
the opcode byte, the run state is `FAULTED` and the record is written. There is no return from it (R171). -/
def State.raise (s : State) (e : CoreError) : State :=
  { s with runState := .faulted, faultRecord := some { error := e, pc := s.pc } }

/-- The code of an error kind (R160). -/
def CoreError.code : CoreError → Nat
  | .invalidAddress _ => 1
  | .invalidRegister _ => 2
  | .unsupportedALUOperation _ => 3
  | .unknownOpcode _ => 4

/-- The offending value of an error as a number (R31, R160). -/
def CoreError.info : CoreError → Nat
  | .invalidAddress a => a
  | .invalidRegister i => i.toNat
  | .unsupportedALUOperation sel => sel.toNat
  | .unknownOpcode op => op.toNat

/-- `pc <- pc + (op >> 6) + 1`, not reduced, with `op` the opcode byte latched at fetch (R35, R104). -/
def State.advance (s : State) (op : Byte) : State := { s with pc := s.pc + operandCount op + 1 }

/-- The end of a cycle that began in `s` with the opcode `op` latched: the advance if the instruction's rule
raised nothing (R104), else the error taken in the state the cycle began in (R110). -/
def State.endCycle (s : State) (op : Byte) (r : Except CoreError State) : Host.Outcome State Fault Refusal :=
  match r with
  | .ok t => .next (t.advance op)
  | .error e => .next (s.raise e)

/-- A cycle that meets the unknown opcode `op`: the error under `StrictFault` (R106), an advance by one byte
whatever the byte's bits are under `LegacySkip` (R105). -/
def State.unknownOpcode (s : State) (op : Byte) : Host.Outcome State Fault Refusal :=
  match s.policy with
  | .strictFault => .next (s.raise (.unknownOpcode op))
  | .legacySkip => .next { s with pc := s.pc + 1 }

end Sys2Proof.Machine
end

