-- ==== Sys2Proof/Machine/Operands.lean ====
section
/-! DEFINITION. The two operand forms (spec/30_encoding.md R73, R74): a register named by an operand byte, whose
access is checked (10_state.md R22), and an immediate. -/

namespace Sys2Proof.Machine

/-- `x[i]` for an operand byte `i` (R10, R22, R73). -/
def State.readOperand (s : State) (i : Byte) : Except CoreError Byte :=
  if h : i.toNat < 8 then .ok (s.getReg ⟨i.toNat, h⟩) else .error (.invalidRegister i)

/-- `x[i] <- v` for an operand byte `i` (R10, R22, R73). -/
def State.writeOperand (s : State) (i v : Byte) : Except CoreError State :=
  if h : i.toNat < 8 then .ok (s.setReg ⟨i.toNat, h⟩ v) else .error (.invalidRegister i)

/-- The value of an immediate operand byte: the byte as it stands (R74). -/
def immediate (imm : Byte) : Byte := imm

end Sys2Proof.Machine
end

