-- ==== Sys2Proof/Machine/Alu.lean ====
section
/-! DEFINITION. The ALU block and MULT (spec/42_alu.md). There are no flags (10_state.md R32), so the package has no
Flags.lean. -/

namespace Sys2Proof.Machine

/-- Selector of `ADD` (R134). -/
def aluAdd : BitVec 2 := 0b00

/-- Selector of `MUL` (R134). -/
def aluMul : BitVec 2 := 0b01

/-- The ALU: the exact result on naturals reduced modulo 256 for `ADD` (R131) and `MUL` (R132), an error for
every other selector (R133). -/
def aluApply (selector : BitVec 2) (a b : Byte) : Except CoreError Byte :=
  if selector = aluAdd then .ok (BitVec.ofNat 8 ((a.toNat + b.toNat) % 256))
  else if selector = aluMul then .ok (BitVec.ofNat 8 ((a.toNat * b.toNat) % 256))
  else .error (.unsupportedALUOperation selector)

/-- MULT: `x[ra] <- (x[ra] * x[rb]) mod 256`, `ra` checked before `rb`, then `pc + 3` (R135). -/
def execMult (ra rb : Byte) (s : State) : Host.Outcome State Fault Refusal :=
  s.endCycle Opcode.mult do
    let a ← s.readOperand ra
    let b ← s.readOperand rb
    let product ← aluApply aluMul a b
    s.writeOperand ra product

end Sys2Proof.Machine
end

