-- ==== Sys2Proof/Machine/Halt.lean ====
section
/-! DEFINITION. HALT (spec/44_halt.md). -/

namespace Sys2Proof.Machine

/-- HALT: the run state becomes `HALTED`, then `pc + 1` (R150). -/
def execHalt (s : State) : Host.Outcome State Fault Refusal :=
  s.endCycle Opcode.halt (.ok s.halt)

end Sys2Proof.Machine
end

