-- ==== Sys2Proof/Machine/RegisterIo.lean ====
section
/-! DEFINITION. LDI and PRN (spec/41_register_io.md). -/

namespace Sys2Proof.Machine

/-- LDI: `x[ra] <- imm`, then `pc + 3` (R120). -/
def execLdi (ra imm : Byte) (s : State) : Host.Outcome State Fault Refusal :=
  s.endCycle Opcode.ldi (s.writeOperand ra (immediate imm))

/-- PRN: the byte of `x[ra]` appended to the output stream, then `pc + 2` (R121). -/
def execPrn (ra : Byte) (s : State) : Host.Outcome State Fault Refusal :=
  s.endCycle Opcode.prn do
    let v ← s.readOperand ra
    pure (s.emit v)

end Sys2Proof.Machine
end

