-- ==== Sys2Proof/Machine/Stack.lean ====
section
/-! DEFINITION. PUSH and POP (spec/43_stack.md). -/

namespace Sys2Proof.Machine

/-- PUSH: the stack pointer decremented, then `x[ra]` (read after the decrement) stored at it, then
`pc + 2` (R140). -/
def execPush (ra : Byte) (s : State) : Host.Outcome State Fault Refusal :=
  s.endCycle Opcode.push do
    let s₁ := s.setSp (spDecremented s.sp)
    let v ← s₁.readOperand ra
    s₁.memWrite s₁.sp.toNat v

/-- POP: `x[ra]` loaded from the stack pointer's address, then the stack pointer (read after that write)
incremented, then `pc + 2` (R141). -/
def execPop (ra : Byte) (s : State) : Host.Outcome State Fault Refusal :=
  s.endCycle Opcode.pop do
    let v ← s.memRead s.sp.toNat
    let s₁ ← s.writeOperand ra v
    pure (s₁.setSp (spIncremented s₁.sp))

end Sys2Proof.Machine
end

