-- ==== Sys2Proof/Machine/Dispatch.lean ====
section
/-! DEFINITION. The dispatch of spec/40_cycle.md R103: one arm per instruction. -/

namespace Sys2Proof.Machine

def exec (i : Instr) (s : State) : Host.Outcome State Fault Refusal :=
  match i with
  | .halt => Sys2Proof.Machine.execHalt s
  | .push ra => Sys2Proof.Machine.execPush ra s
  | .pop ra => Sys2Proof.Machine.execPop ra s
  | .prn ra => Sys2Proof.Machine.execPrn ra s
  | .ldi ra imm => Sys2Proof.Machine.execLdi ra imm s
  | .mult ra rb => Sys2Proof.Machine.execMult ra rb s

end Sys2Proof.Machine
end

