-- ==== Sys2Proof/Machine/Cycle.lean ====
section
/-! DEFINITION. Fetching an instruction and one cycle (spec/40_cycle.md R100 to R111), in the form the decoder and
`exec` give it: the instruction's bytes first, then its effect. Machine/Pseudocode.lean holds the cycle in
the spec's own order, and the obligation `CycleFollowsThePseudocode` says that the two agree. -/

namespace Sys2Proof.Machine

/-- At most `n` bytes from address `a` up, as `MemRead` gives them, ending before an address that has none. -/
def State.bytesFrom (s : State) : Nat → Nat → List Byte
  | 0, _ => []
  | n + 1, a =>
    match s.memRead a with
    | .ok b => b :: State.bytesFrom s n (a + 1)
    | .error _ => []

/-- The bytes at `pc` that the decoder may need (R55, R70). -/
def State.fetchWindow (s : State) : List Byte := s.bytesFrom maxLength s.pc

/-- The instruction at `pc`, or the error that reading its bytes raises: the first address outside memory among
the opcode's (R101) and the operands' in rising order (R109), or the unknown opcode (R102). -/
def State.fetch (s : State) : Except CoreError Instr :=
  match decode s.fetchWindow with
  | .ok (i, _) => .ok i
  | .error .noOpcode => .error (.invalidAddress s.pc)
  | .error (.missingOperand k) => .error (.invalidAddress (s.pc + k))
  | .error (.unknownOpcode op) => .error (.unknownOpcode op)

/-- One cycle of a running core (R100, R111). -/
def State.cycle (s : State) : Host.Outcome State Fault Refusal :=
  match s.fetch with
  | .ok i => exec i s
  | .error (.unknownOpcode op) => s.unknownOpcode op
  | .error e => .next (s.raise e)

end Sys2Proof.Machine
end

