-- ==== Sys2Proof/Machine/Step.lean ====
section
/-! DEFINITION. The step of the machine: one cycle in `RUNNING`, none in `HALTED` or `FAULTED`
(spec/40_cycle.md R100, R107). -/

namespace Sys2Proof.Machine

/-- One step. In `HALTED` and `FAULTED` there is none (R100, R151, R171; log entry 3). -/
def step (s : State) : Host.Outcome State Fault Refusal :=
  match s.runState with
  | .running => s.cycle
  | .halted => .fault .noCycleInHalted
  | .faulted => .fault .noCycleInFaulted

/-- `s` with the instruction whose bits are `w` stored at `pc`, where the next fetch reads it (log entry 6). -/
def State.withFetchWord (s : State) (nbits w : Nat) : State :=
  { s with mem := s.mem.load s.pc (tableBytes nbits w) }

end Sys2Proof.Machine
end

