-- ==== Sys2Proof/Machine/Pseudocode.lean ====
section
/-! DEFINITION. The cycle of spec/40_cycle.md R111 line by line, each instruction reading its own operand bytes in
the order its rule lists (R80, R103, R109). `step` does not use it: it is the text that `step` is compared with. -/

namespace Sys2Proof.Machine

namespace Pseudocode

/-- R120 -/
def ldi (s : State) : Except CoreError State := do
  let ra ← s.memRead (s.pc + 1)
  let imm ← s.memRead (s.pc + 2)
  s.writeOperand ra imm

/-- R121 -/
def prn (s : State) : Except CoreError State := do
  let ra ← s.memRead (s.pc + 1)
  let v ← s.readOperand ra
  pure (s.emit v)

/-- R135 -/
def mult (s : State) : Except CoreError State := do
  let ra ← s.memRead (s.pc + 1)
  let rb ← s.memRead (s.pc + 2)
  let a ← s.readOperand ra
  let b ← s.readOperand rb
  let product ← aluApply aluMul a b
  s.writeOperand ra product

/-- R140: the decrement comes before the operand byte is read. -/
def push (s : State) : Except CoreError State := do
  let s₁ := s.setSp (spDecremented s.sp)
  let ra ← s₁.memRead (s₁.pc + 1)
  let v ← s₁.readOperand ra
  s₁.memWrite s₁.sp.toNat v

/-- R141 -/
def pop (s : State) : Except CoreError State := do
  let ra ← s.memRead (s.pc + 1)
  let v ← s.memRead s.sp.toNat
  let s₁ ← s.writeOperand ra v
  pure (s₁.setSp (spIncremented s₁.sp))

/-- R150 -/
def halt (s : State) : Except CoreError State := .ok s.halt

/-- `Execute(I)` then the advance, or what an absent opcode does (R102 to R106). -/
def afterFetch (s : State) (op : Byte) : Except CoreError State :=
  if op = 0x01 then (halt s).map (·.advance op)
  else if op = 0x45 then (push s).map (·.advance op)
  else if op = 0x46 then (pop s).map (·.advance op)
  else if op = 0x47 then (prn s).map (·.advance op)
  else if op = 0x82 then (ldi s).map (·.advance op)
  else if op = 0xA2 then (mult s).map (·.advance op)
  else match s.policy with
    | .legacySkip => .ok { s with pc := s.pc + 1 }
    | .strictFault => .error (.unknownOpcode op)

/-- `Cycle()` of R111: `s` is the snapshot to which a raise goes back (R110, R170). -/
def cycle (s : State) : State :=
  match s.memRead s.pc >>= afterFetch s with
  | .ok t => t
  | .error e => s.raise e

end Pseudocode

end Sys2Proof.Machine
end

