-- ==== Sys2Proof/Machine/HostInterface.lean ====
section
/-! DEFINITION. The host's side of the core (spec/10_state.md R37 to R40; 70_reset_and_hazards.md R190 to R196): the
launch with its image and configuration, the output, the status and the trace. -/

namespace Sys2Proof.Machine

/-- The state in which a run begins, for a policy, a `REG_INIT` and an image (R40, R41, R190, R193). An image of more
than 256 bytes starts no run (R194). -/
def State.launch (policy : Config.UnknownOpcodePolicy) (regInit : Vector Byte 7) (image : List Byte) :
    Option State :=
  if image.length ≤ Config.memSize then
    some { State.reset with
      regs := regInit.push Config.spReset
      mem := Memory.load [] 0 image
      policy := policy }
  else none

/-- The output stream as the host prints it: a line of unsigned decimal text for each byte, in order (R36, R121). -/
def State.outputLines (s : State) : List String := s.output.map fun v => toString v.toNat

/-- What the tracer reads (R38): every register, `pc` and every memory cell. -/
structure Snapshot where
  regs : Vector Byte 8
  pc : Nat
  cells : Vector Byte 256
  deriving DecidableEq, Repr

/-- A snapshot, which changes no state (R38). -/
def State.snapshot (s : State) : Snapshot where
  regs := s.regs
  pc := s.pc
  cells := Vector.ofFn fun a => s.mem.read a.val

/-- What the status interface reports (R39): the run state, and in `FAULTED` the record's code, `pc` and
offending value (R31, R160). -/
structure Status where
  runState : RunState
  record : Option (Nat × Nat × Nat)
  deriving DecidableEq, Repr

/-- The status report (R39). -/
def State.status (s : State) : Status where
  runState := s.runState
  record :=
    match s.runState with
    | .faulted => s.faultRecord.map fun r => (r.error.code, r.pc, r.error.info)
    | _ => none

end Sys2Proof.Machine
end

