-- ==== Sys2Proof/Safety.lean ====
section
/-! DEFINITION. What claims are stated in: the invariant of the core, the outcomes that end a run, and instructions
run one after another. -/

namespace Sys2Proof.Machine

/-- What an error of the fault record says about the state it was raised in (spec/60_exceptions.md R161 to R164). -/
def CoreError.PossibleIn (s : State) : CoreError → Prop
  | .invalidAddress a => a = 256
  | .invalidRegister i => 8 ≤ i.toNat
  | .unsupportedALUOperation _ => False
  | .unknownOpcode op =>
    s.policy = .strictFault ∧ s.pc < 256 ∧ s.mem.read s.pc = op ∧ lookupOpcode op = none

/-- The invariant of the core. -/
structure State.Inv (s : State) : Prop where
  /-- memory is in its canonical form -/
  mem_wf : s.mem.wf = true
  /-- R29 -/
  pc_le : s.pc ≤ 256
  /-- the fault record is empty exactly outside `FAULTED` (R31) -/
  record_iff : s.faultRecord.isSome = true ↔ s.runState = .faulted
  /-- the record holds the `pc` at which the core stands, and an error that can happen (R31, R161 to R164) -/
  record_ok : ∀ r, s.faultRecord = some r → r.pc = s.pc ∧ r.error.PossibleIn s
  /-- a halted core stands one byte past a HALT (R150, R152) -/
  halted_after_halt : s.runState = .halted → 1 ≤ s.pc ∧ s.mem.read (s.pc - 1) = Opcode.halt

/-- Instructions executed one after another, each in the state the one before left. -/
def execAll : List Instr → State → Host.Outcome State Fault Refusal
  | [], s => .next s
  | i :: is, s =>
    match exec i s with
    | .next t => execAll is t
    | .fault r => .fault r
    | .refused r => .refused r

/-- Where PUSH stores its byte, computed as `execPush` computes it (R140). -/
def State.pushAddress (s : State) : Nat := (s.setSp (spDecremented s.sp)).sp.toNat

end Sys2Proof.Machine
end

