-- ==== Sys2Proof/Certificates/Slice0/Obligations.lean ====
section
/-! DEFINITION. The statements for the provers. Each docstring says which rules of spec/ a statement formalises. Where the
spec marks a rule as its own decision ([decision: ... Dn]) or as derived, the docstring says so. The state that a raise
leaves (`State.raise`) is the spec's own decision (60_exceptions.md section 3: R110 and R170, D7 to D9), and that it is a next
state is log entry 4: a statement that concludes that state is derived. -/

open Sys2Proof Sys2Proof.Machine

/-! ### Launch and reset -/

/-- 10_state.md section 8 (R40, decisions D3 and D4): every launch with an image that fits begins with each piece of state
at its reset value, for every `REG_INIT` and either policy. -/
def Obligations.LaunchGivesTheResetValues : Prop :=
  ∀ (policy : Config.UnknownOpcodePolicy) (regInit : Vector Byte 7) (image : List Byte), image.length ≤ 256 →
    ∃ s, State.launch policy regInit image = some s ∧ s.pc = 0 ∧ s.runState = .running ∧ s.faultRecord = none ∧
      s.output = [] ∧ s.policy = policy ∧ s.getReg 7 = 0xF4 ∧ (∀ r : Fin 7, s.getReg r.castSucc = regInit[r]) ∧
      ∀ a, s.mem.read a = if h : a < image.length then image[a] else 0x00

/-- 70_reset_and_hazards.md section 2 (R194, decision D16): an image of more than 256 bytes starts no run. -/
def Obligations.LongImageStartsNoRun : Prop :=
  ∀ (policy : Config.UnknownOpcodePolicy) (regInit : Vector Byte 7) (image : List Byte), 256 < image.length →
    State.launch policy regInit image = none

/-- The model's choice (log entries 1 and 2): the machine's reset state is the launch with nothing loaded, `REG_INIT` all
zero and the spec's default policy. -/
def Obligations.ResetIsTheEmptyLaunch : Prop :=
  State.launch .strictFault (Vector.replicate 7 0x00) [] = some State.reset

/-! ### Encoding -/

/-- 30_encoding.md sections 1 to 3 (formats and opcode map): decoding and encoding agree. For every instruction, with every
operand at every value, and whatever bytes follow, the decoder reads the instruction exactly from its encoding. -/
def Obligations.DecodeAndEncodeAgree : Prop :=
  ∀ (bytes : List Byte) (i : Instr) (rest : List Byte), decode bytes = .ok (i, rest) ↔ bytes = encode i ++ rest

/-- 30_encoding.md section 1 (lengths and formats): a sequence of instructions laid out one after another can be read in one
way only. -/
def Obligations.InstructionSequencesReadOneWay : Prop :=
  ∀ is js : List Instr, is.flatMap encode = js.flatMap encode → is = js

/-- R75: the opcode table maps exactly six byte values, each with its operand count in bits [7:6]. -/
def Obligations.OpcodeTableHasExactlySixEntries : Prop :=
  lookupOpcode 0x01 = some ⟨0x01, "HALT", .f0 .halt⟩ ∧ operandCount 0x01 = 0 ∧
  lookupOpcode 0x45 = some ⟨0x45, "PUSH", .f1r .push⟩ ∧ operandCount 0x45 = 1 ∧
  lookupOpcode 0x46 = some ⟨0x46, "POP", .f1r .pop⟩ ∧ operandCount 0x46 = 1 ∧
  lookupOpcode 0x47 = some ⟨0x47, "PRN", .f1r .prn⟩ ∧ operandCount 0x47 = 1 ∧
  lookupOpcode 0x82 = some ⟨0x82, "LDI", .f2ri .ldi⟩ ∧ operandCount 0x82 = 2 ∧
  lookupOpcode 0xA2 = some ⟨0xA2, "MULT", .f2rr .mult⟩ ∧ operandCount 0xA2 = 2 ∧
  ∀ op : Byte, op ∉ ([0x01, 0x45, 0x46, 0x47, 0x82, 0xA2] : List Byte) → lookupOpcode op = none

/-- 30_encoding.md section 4 (R77, decision D1; R78, derived): 250 byte values are unknown opcodes, 0x00, 0xA0 and every
value with bits [7:6] = 11 among them, and the decoder refuses them by name. -/
def Obligations.UnknownOpcodesAreRefusedByName : Prop :=
  ((List.range 256).filter fun n => (lookupOpcode (BitVec.ofNat 8 n)).isNone).length = 250 ∧
  lookupOpcode 0x00 = none ∧ lookupOpcode 0xA0 = none ∧ (∀ op : Byte, 0xC0 ≤ op.toNat → lookupOpcode op = none) ∧
  ∀ (op : Byte) (rest : List Byte), lookupOpcode op = none → decode (op :: rest) = .error (.unknownOpcode op)

/-- R73, R22: a register operand is the whole byte. Decoding never fails on it; 0 to 7 read and write that register and no
other, and 8 to 255 raise `InvalidRegister`, which gives no new state. -/
def Obligations.RegisterOperandIsTheWholeByte : Prop :=
  (∀ (op b₁ b₂ : Byte) (row : OpcodeRow) (rest : List Byte), lookupOpcode op = some row →
    ∃ i left, decode (op :: b₁ :: b₂ :: rest) = .ok (i, left)) ∧
  (∀ (s : State) (i : Byte), 8 ≤ i.toNat →
    s.readOperand i = .error (.invalidRegister i) ∧ ∀ v, s.writeOperand i v = .error (.invalidRegister i)) ∧
  ∀ (s : State) (r : Fin 8), s.readOperand (BitVec.ofNat 8 r.val) = .ok (s.getReg r) ∧
    ∀ v, ∃ t, s.writeOperand (BitVec.ofNat 8 r.val) v = .ok t ∧
      ∀ q, t.getReg q = if q = r then v else s.getReg q

/-- The words of the source's scenarios (95_test_vectors.md section 1), decoded. The two `missingOperand` clauses are the
model's choice (log entry 5): the model's decoder takes the operand bytes with the opcode, where the spec's decoding never
fails on an operand byte (30_encoding.md section 2, R73, R80) and the instruction's own read raises. They are the bytes of
V14 and V54 (95_test_vectors.md section 2), and a step turns them into the `InvalidAddress` of those vectors. -/
def Obligations.WordsOfTheManualDecode : Prop :=
  decode [0x82, 0x00, 0x08] = .ok (.ldi 0 8, []) ∧ decode [0xA2, 0x00, 0x01] = .ok (.mult 0 1, []) ∧
  decode [0x47, 0x00] = .ok (.prn 0, []) ∧ decode [0x45, 0x02] = .ok (.push 2, []) ∧
  decode [0x46, 0x03] = .ok (.pop 3, []) ∧ decode [0x01] = .ok (.halt, []) ∧
  decode [0x82, 0x09] = .error (.missingOperand 2) ∧ decode [0x45] = .error (.missingOperand 1)

/-! ### Fetch and the cycle -/

/-- 20_memory.md sections 1 and 6 (R51, R66; R52, derived) and 40_cycle.md section 1 (R101, decision D19): a memory read gives
the cell in 0 to 255, and a read or write raises `InvalidAddress` with the address itself beyond, so the fetch at `pc` = 256
or more raises and reads nothing. The state that this raise leaves is the spec's own decision (R110, R170, D7 to D9), and
that it is a next state is log entry 4. -/
def Obligations.AddressesOutsideMemoryRaise : Prop :=
  (∀ (s : State) (a : Nat), a ≤ 255 → s.memRead a = .ok (s.mem.read a)) ∧
  (∀ (s : State) (a : Nat), 256 ≤ a → s.memRead a = .error (.invalidAddress a)) ∧
  (∀ (s : State) (a : Nat) (v : Byte), 256 ≤ a → s.memWrite a v = .error (.invalidAddress a)) ∧
  ∀ s : State, s.runState = .running → 256 ≤ s.pc → step s = .next (s.raise (.invalidAddress s.pc))

/-- R70: an instruction that is fetched lies in memory at `pc` as its encoding, opcode first, with a length of
`op[7:6] + 1` bytes, which is 1, 2 or 3. -/
def Obligations.FetchedInstructionLiesAtPc : Prop :=
  ∀ (s : State) (i : Instr), s.fetch = .ok i →
    (encode i).length = operandCount (s.mem.read s.pc) + 1 ∧ 1 ≤ (encode i).length ∧ (encode i).length ≤ 3 ∧
    s.pc + (encode i).length ≤ 256 ∧
    ∀ (k : Nat) (h : k < (encode i).length), s.mem.read (s.pc + k) = (encode i)[k]

/-- 40_cycle.md section 1 (R103): when the bytes at `pc` decode to an instruction, a step of a running core is that
instruction's `exec`, well-formed or not. That the operand bytes are decoded with the opcode is log entry 5, and that the
advance of `pc` is part of `exec` is log entry 7. -/
def Obligations.StepRunsTheDecodedInstruction : Prop :=
  ∀ (s : State) (i : Instr) (rest : List Byte), s.runState = .running → decode s.fetchWindow = .ok (i, rest) →
    step s = exec i s

/-- 40_cycle.md section 1 (R101 to R103): when an instruction's encoding stands in memory from `pc` up, a step of a running
core is that instruction's `exec`. -/
def Obligations.StepRunsTheEncodingInMemory : Prop :=
  ∀ (s : State) (i : Instr), s.runState = .running → s.pc + (encode i).length ≤ 256 →
    (∀ (k : Nat) (h : k < (encode i).length), s.mem.read (s.pc + k) = (encode i)[k]) → step s = exec i s

/-- 40_cycle.md section 3 (R111, decisions D1 and D9; log entry 5): a step of a running core is the cycle of the spec's
pseudocode, in which each instruction reads its own operand bytes in its own order. -/
def Obligations.CycleFollowsThePseudocode : Prop :=
  ∀ s : State, s.runState = .running → step s = .next (Pseudocode.cycle s)

/-- 40_cycle.md section 1, 44_halt.md, 60_exceptions.md section 3 (R100, R107, R151, R171, decision D17): a step answers a
next state exactly in `RUNNING`. The name of the stop in the other two is the model's choice (log entry 3). -/
def Obligations.OnlyARunningCoreSteps : Prop :=
  ∀ s : State, ((∃ t, step s = .next t) ↔ s.runState = .running) ∧
    (s.runState = .halted → step s = .fault .noCycleInHalted) ∧
    (s.runState = .faulted → step s = .fault .noCycleInFaulted)

/-- 40_cycle.md section 1 (R106, decision D1): an unknown opcode under `StrictFault` raises `UnknownOpcode`,
which leaves the state of R110 and R170 (decisions D7 to D9; a next state by log entry 4). -/
def Obligations.UnknownOpcodeFaultsWhenStrict : Prop :=
  ∀ s : State, s.runState = .running → s.pc < 256 → lookupOpcode (s.mem.read s.pc) = none → s.policy = .strictFault →
    step s = .next (s.raise (.unknownOpcode (s.mem.read s.pc)))

/-- 40_cycle.md section 1 (R105, decision D1): an unknown opcode under `LegacySkip` advances `pc` by 1, whatever its bits
[7:6] are, and changes nothing else. -/
def Obligations.UnknownOpcodeIsSkippedWhenLegacy : Prop :=
  ∀ s : State, s.runState = .running → s.pc < 256 → lookupOpcode (s.mem.read s.pc) = none → s.policy = .legacySkip →
    step s = .next { s with pc := s.pc + 1 }

/-! ### One cycle of each instruction, from the bytes in memory -/

/-- 41_register_io.md (R120): the operand bytes are read before the register is checked. The state that a raise leaves is the
spec's own decision (R110, R170, D7 to D9), and that it is a next state is log entry 4. -/
def Obligations.LdiCycle : Prop :=
  ∀ s : State, s.runState = .running → s.pc < 256 → s.mem.read s.pc = 0x82 →
    step s = .next (
      if 256 ≤ s.pc + 1 then s.raise (.invalidAddress (s.pc + 1))
      else if 256 ≤ s.pc + 2 then s.raise (.invalidAddress (s.pc + 2))
      else if h : (s.mem.read (s.pc + 1)).toNat < 8 then
        { s with regs := s.regs.set (s.mem.read (s.pc + 1)).toNat (s.mem.read (s.pc + 2)) h, pc := s.pc + 3 }
      else s.raise (.invalidRegister (s.mem.read (s.pc + 1))))

/-- 41_register_io.md (R121): a PRN that raises emits nothing. The state that a raise leaves is the spec's own decision
(R110, R170, D7 to D9), and that it is a next state is log entry 4. -/
def Obligations.PrnCycle : Prop :=
  ∀ s : State, s.runState = .running → s.pc < 256 → s.mem.read s.pc = 0x47 →
    step s = .next (
      if 256 ≤ s.pc + 1 then s.raise (.invalidAddress (s.pc + 1))
      else if h : (s.mem.read (s.pc + 1)).toNat < 8 then
        { s with output := s.output ++ [s.regs[(s.mem.read (s.pc + 1)).toNat]], pc := s.pc + 2 }
      else s.raise (.invalidRegister (s.mem.read (s.pc + 1))))

/-- 42_alu.md R135 (decisions D10 and D20): the first register is checked before the second. The state that a raise leaves is
the spec's own decision (R110, R170, D7 to D9), and that it is a next state is log entry 4. -/
def Obligations.MultCycle : Prop :=
  ∀ s : State, s.runState = .running → s.pc < 256 → s.mem.read s.pc = 0xA2 →
    step s = .next (
      if 256 ≤ s.pc + 1 then s.raise (.invalidAddress (s.pc + 1))
      else if 256 ≤ s.pc + 2 then s.raise (.invalidAddress (s.pc + 2))
      else if ha : (s.mem.read (s.pc + 1)).toNat < 8 then
        if hb : (s.mem.read (s.pc + 2)).toNat < 8 then
          { s with
            regs := s.regs.set (s.mem.read (s.pc + 1)).toNat
              (BitVec.ofNat 8 ((s.regs[(s.mem.read (s.pc + 1)).toNat].toNat *
                s.regs[(s.mem.read (s.pc + 2)).toNat].toNat) % 256)) ha
            pc := s.pc + 3 }
        else s.raise (.invalidRegister (s.mem.read (s.pc + 2)))
      else s.raise (.invalidRegister (s.mem.read (s.pc + 1))))

/-- 43_stack.md R140 (decisions D5 and D9): the byte stored is the register's after the decrement, the advance uses the
latched opcode even when the store falls on it, and a raise leaves the stack pointer as it was (R110, R170, D7 to D9; a next
state by log entry 4). -/
def Obligations.PushCycle : Prop :=
  ∀ s : State, s.runState = .running → s.pc < 256 → s.mem.read s.pc = 0x45 →
    step s = .next (
      let sp := BitVec.ofNat 8 ((s.regs[7].toNat + 255) % 256)
      let regs := s.regs.set 7 sp
      if 256 ≤ s.pc + 1 then s.raise (.invalidAddress (s.pc + 1))
      else if h : (s.mem.read (s.pc + 1)).toNat < 8 then
        { s with
          regs := regs
          mem := s.mem.write sp.toNat regs[(s.mem.read (s.pc + 1)).toNat]
          pc := s.pc + 2 }
      else s.raise (.invalidRegister (s.mem.read (s.pc + 1))))

/-- 43_stack.md R141 (decisions D5 and D9): the increment reads the stack pointer after the popped byte is
written. The state that a raise leaves is the spec's own decision (R110, R170, D7 to D9), and that it is a next state is log
entry 4. -/
def Obligations.PopCycle : Prop :=
  ∀ s : State, s.runState = .running → s.pc < 256 → s.mem.read s.pc = 0x46 →
    step s = .next (
      if 256 ≤ s.pc + 1 then s.raise (.invalidAddress (s.pc + 1))
      else if h : (s.mem.read (s.pc + 1)).toNat < 8 then
        let regs := s.regs.set (s.mem.read (s.pc + 1)).toNat (s.mem.read s.regs[7].toNat) h
        { s with regs := regs.set 7 (BitVec.ofNat 8 ((regs[7].toNat + 1) % 256)), pc := s.pc + 2 }
      else s.raise (.invalidRegister (s.mem.read (s.pc + 1))))

/-- R150. -/
def Obligations.HaltCycle : Prop :=
  ∀ s : State, s.runState = .running → s.pc < 256 → s.mem.read s.pc = 0x01 →
    step s = .next { s with runState := .halted, pc := s.pc + 1 }

/-! ### Each instruction completes -/

/-- 41_register_io.md R120: LDI completes for every register operand 0 to 7 and every immediate. -/
def Obligations.LdiCompletes : Prop :=
  ∀ (ra imm : Byte) (s : State) (h : ra.toNat < 8),
    exec (.ldi ra imm) s = .next { s with regs := s.regs.set ra.toNat imm h, pc := s.pc + 3 }

/-- 41_register_io.md R121: PRN completes for every register operand 0 to 7. -/
def Obligations.PrnCompletes : Prop :=
  ∀ (ra : Byte) (s : State) (_ : ra.toNat < 8),
    exec (.prn ra) s = .next { s with output := s.output ++ [s.regs[ra.toNat]], pc := s.pc + 2 }

/-- 42_alu.md R135: MULT completes for every pair of register operands 0 to 7, equal ones and R7 among them. -/
def Obligations.MultCompletes : Prop :=
  ∀ (ra rb : Byte) (s : State) (ha : ra.toNat < 8) (_ : rb.toNat < 8),
    exec (.mult ra rb) s = .next { s with
      regs := s.regs.set ra.toNat (BitVec.ofNat 8 ((s.regs[ra.toNat].toNat * s.regs[rb.toNat].toNat) % 256)) ha
      pc := s.pc + 3 }

/-- 43_stack.md R140: PUSH completes for every register operand 0 to 7; R7 pushes the decremented stack pointer, and a
stack pointer of 0x00 becomes 0xFF. -/
def Obligations.PushCompletes : Prop :=
  ∀ (ra : Byte) (s : State) (_ : ra.toNat < 8),
    let sp := BitVec.ofNat 8 ((s.regs[7].toNat + 255) % 256)
    let v := if ra = 7 then sp else s.regs[ra.toNat]
    ∃ t, exec (.push ra) s = .next t ∧ t.regs = s.regs.set 7 sp ∧ t.mem.read sp.toNat = v ∧
      (∀ a, a ≠ sp.toNat → t.mem.read a = s.mem.read a) ∧ t.pc = s.pc + 2 ∧ t.runState = s.runState ∧
      t.faultRecord = s.faultRecord ∧ t.output = s.output ∧ t.policy = s.policy

/-- 43_stack.md R141: POP completes for every register operand 0 to 7; with R7 the stack pointer is the popped byte plus 1,
else the old stack pointer plus 1, modulo 256. -/
def Obligations.PopCompletes : Prop :=
  ∀ (ra : Byte) (s : State) (h : ra.toNat < 8),
    let v := s.mem.read s.regs[7].toNat
    exec (.pop ra) s = .next { s with
      regs := (s.regs.set ra.toNat v h).set 7
        (BitVec.ofNat 8 (((if ra = 7 then v else s.regs[7]).toNat + 1) % 256))
      pc := s.pc + 2 }

/-- 44_halt.md R150: HALT always completes. -/
def Obligations.HaltCompletes : Prop :=
  ∀ s : State, exec .halt s = .next { s with runState := .halted, pc := s.pc + 1 }

/-- 60_exceptions.md section 1 (R162; R165, derived): a register operand of 8 to 255 raises `InvalidRegister` with that
byte, MULT's first operand before its second, and nothing else of the state changes but what a raise writes (R110, R170,
decisions D7 to D9; a next state by log entry 4). -/
def Obligations.InvalidRegisterOperandsTrap : Prop :=
  (∀ (ra imm : Byte) (s : State), 8 ≤ ra.toNat →
    exec (.ldi ra imm) s = .next (s.raise (.invalidRegister ra)) ∧
    exec (.prn ra) s = .next (s.raise (.invalidRegister ra)) ∧
    exec (.push ra) s = .next (s.raise (.invalidRegister ra)) ∧
    exec (.pop ra) s = .next (s.raise (.invalidRegister ra))) ∧
  ∀ (ra rb : Byte) (s : State),
    (8 ≤ ra.toNat → exec (.mult ra rb) s = .next (s.raise (.invalidRegister ra))) ∧
    (ra.toNat < 8 → 8 ≤ rb.toNat → exec (.mult ra rb) s = .next (s.raise (.invalidRegister rb)))

/-- 70_reset_and_hazards.md section 2 (R195 (b), derived): in a core that is not already faulted, every instruction answers
a next state, and that state is faulted exactly when some register operand is 8 to 255. -/
def Obligations.CompletesExactlyWhenWellFormed : Prop :=
  ∀ (i : Instr) (s : State), s.runState ≠ .faulted →
    ∃ t, exec i s = .next t ∧ (t.runState = .faulted ↔ i.wellFormed = false)

/-! ### Frames -/

/-- 41_register_io.md R120, 42_alu.md R135: what LDI and MULT leave unchanged: every register but the first operand's, all of memory,
the output, the policy, and, when the register operands are 0 to 7, the run state and the fault record. -/
def Obligations.LdiAndMultFrame : Prop :=
  ∀ (i : Instr) (ra b : Byte) (s t : State), i = .ldi ra b ∨ i = .mult ra b → exec i s = .next t →
    (∀ q : Fin 8, q.val ≠ ra.toNat → t.getReg q = s.getReg q) ∧ (∀ a, t.mem.read a = s.mem.read a) ∧
    t.output = s.output ∧ t.policy = s.policy ∧
    (i.wellFormed = true → t.runState = s.runState ∧ t.faultRecord = s.faultRecord)

/-- 41_register_io.md R121, 44_halt.md R150: what PRN and HALT leave unchanged: every register, all of memory, the policy; the output but
for the byte PRN appends; the run state and the fault record of a PRN whose operand is 0 to 7; the fault record of a
HALT. -/
def Obligations.PrnAndHaltFrame : Prop :=
  ∀ (s t : State),
    (∀ ra : Byte, exec (.prn ra) s = .next t →
      (∀ q : Fin 8, t.getReg q = s.getReg q) ∧ (∀ a, t.mem.read a = s.mem.read a) ∧ t.policy = s.policy ∧
      (∃ v, t.output = s.output ∨ t.output = s.output ++ [v]) ∧
      (ra.toNat < 8 → t.runState = s.runState ∧ t.faultRecord = s.faultRecord)) ∧
    (exec .halt s = .next t →
      (∀ q : Fin 8, t.getReg q = s.getReg q) ∧ (∀ a, t.mem.read a = s.mem.read a) ∧ t.policy = s.policy ∧
      t.output = s.output ∧ t.faultRecord = s.faultRecord)

/-- 43_stack.md R140: what PUSH leaves unchanged: every register but R7, every byte of memory but the one at the address it stores
to, the output, the policy, and, when the operand is 0 to 7, the run state and the fault record. -/
def Obligations.PushFrame : Prop :=
  ∀ (ra : Byte) (s t : State), exec (.push ra) s = .next t →
    (∀ q : Fin 8, q ≠ 7 → t.getReg q = s.getReg q) ∧
    (∀ a, s.pushAddress = a → ∀ b, b ≠ a → t.mem.read b = s.mem.read b) ∧
    t.output = s.output ∧ t.policy = s.policy ∧
    (ra.toNat < 8 → t.runState = s.runState ∧ t.faultRecord = s.faultRecord)

/-- 43_stack.md R141: what POP leaves unchanged: every register but its operand's and R7, all of memory (the popped cell too), the
output, the policy, and, when the operand is 0 to 7, the run state and the fault record. -/
def Obligations.PopFrame : Prop :=
  ∀ (ra : Byte) (s t : State), exec (.pop ra) s = .next t →
    (∀ q : Fin 8, q ≠ 7 → q.val ≠ ra.toNat → t.getReg q = s.getReg q) ∧ (∀ a, t.mem.read a = s.mem.read a) ∧
    t.output = s.output ∧ t.policy = s.policy ∧
    (ra.toNat < 8 → t.runState = s.runState ∧ t.faultRecord = s.faultRecord)

/-! ### The ALU -/

/-- R131. -/
def Obligations.AluAddsModulo256 : Prop :=
  ∀ a b : Byte, ∃ r : Byte, aluApply aluAdd a b = .ok r ∧ r.toNat = (a.toNat + b.toNat) % 256

/-- R132: the low 8 bits of the unsigned product. -/
def Obligations.AluMultipliesModulo256 : Prop :=
  ∀ a b : Byte, ∃ r : Byte, aluApply aluMul a b = .ok r ∧ r.toNat = (a.toNat * b.toNat) % 256

/-- R163: the ALU raises `UnsupportedALUOperation` for every selector but those of ADD and MUL, and no step of the core
does. -/
def Obligations.NoProgramRaisesUnsupportedAluOperation : Prop :=
  (∀ (sel : BitVec 2) (a b : Byte), sel ≠ aluAdd → sel ≠ aluMul →
    aluApply sel a b = .error (.unsupportedALUOperation sel)) ∧
  ∀ (s t : State), step s = .next t → t.runState = .faulted →
    ∃ r, t.faultRecord = some r ∧ ∀ sel, r.error ≠ .unsupportedALUOperation sel

/-! ### Rules about the whole machine -/

/-- R104: a known opcode whose rule raised nothing advances `pc` by its bits [7:6] and one more, read before the cycle
(the latched byte): 1 for HALT, 2 for PUSH, POP and PRN, 3 for LDI and MULT, not reduced. -/
def Obligations.KnownOpcodeAdvancesByItsTopBits : Prop :=
  ∀ (s t : State) (i : Instr), step s = .next t → s.fetch = .ok i → t.runState ≠ .faulted →
    t.pc = s.pc + operandCount (s.mem.read s.pc) + 1 ∧
    t.pc = s.pc + (match i with
      | .halt => 1
      | .push _ => 2
      | .pop _ => 2
      | .prn _ => 2
      | .ldi _ _ => 3
      | .mult _ _ => 3)

/-- 40_cycle.md sections 1 and 3, 10_state.md section 3 (R29, R112, derived): a completed cycle moves `pc` forward and
not past 256; a cycle that raises leaves it. -/
def Obligations.PcNeverGoesBack : Prop :=
  ∀ (s t : State), step s = .next t →
    (t.runState = .faulted → t.pc = s.pc) ∧ (t.runState ≠ .faulted → s.pc < t.pc ∧ t.pc ≤ 256)

/-- 40_cycle.md section 3 (R112, derived): from any running state whose `pc` is 0 to 256, with any memory, the run has
ended within 257 cycles. -/
def Obligations.EveryRunEnds : Prop :=
  ∀ s : State, s.runState = .running → s.pc ≤ 256 →
    ∃ k, k ≤ 257 - s.pc ∧ ∃ t, Host.Core.run core k s = .next t ∧ t.runState ≠ .running

/-- 41_register_io.md R122 and 10_state.md section 6 (R36, decision D12): PRN alone writes the output stream, one byte for
each completed execution, at its end. -/
def Obligations.OnlyPrnWritesTheOutput : Prop :=
  ∀ (s t : State), step s = .next t →
    t.output =
      match s.fetch with
      | .ok (.prn ra) => if h : ra.toNat < 8 then s.output ++ [s.regs[ra.toNat]] else s.output
      | _ => s.output

/-- 20_memory.md section 1 (R50): a byte of memory that a step changes is the one a PUSH stores. -/
def Obligations.OnlyPushWritesMemory : Prop :=
  ∀ (s t : State) (a : Nat), step s = .next t → t.mem.read a ≠ s.mem.read a →
    ∃ ra : Byte, s.fetch = .ok (.push ra) ∧ ra.toNat < 8 ∧ a = s.pushAddress

/-- 10_state.md section 1 (R24, R25, derived): a register that a step changes is one that its instruction writes. -/
def Obligations.RegistersChangeOnlyAsTheTableSays : Prop :=
  ∀ (s t : State) (q : Fin 8), step s = .next t → t.getReg q ≠ s.getReg q →
    (∃ ra imm : Byte, s.fetch = .ok (.ldi ra imm) ∧ q.val = ra.toNat) ∨
    (∃ ra rb : Byte, s.fetch = .ok (.mult ra rb) ∧ q.val = ra.toNat) ∨
    (∃ ra : Byte, s.fetch = .ok (.push ra) ∧ q = 7) ∨
    (∃ ra : Byte, s.fetch = .ok (.pop ra) ∧ (q.val = ra.toNat ∨ q = 7))

/-- 44_halt.md (R150; R152, decision D7): a core comes to `HALTED` exactly by a HALT. -/
def Obligations.OnlyHaltHalts : Prop :=
  ∀ (s t : State), step s = .next t → (t.runState = .halted ↔ s.fetch = .ok .halt)

/-- 40_cycle.md section 2, 60_exceptions.md section 3 (R110, R170, decisions D7, D8, D9, which are the spec's own choice):
the state after a fault is the state before the faulting cycle, with the run state and the record written; and the
record's error is one that the state before admits. -/
def Obligations.FaultsArePrecise : Prop :=
  ∀ (s t : State), step s = .next t → t.runState = .faulted →
    ∃ e : CoreError, t = { s with runState := .faulted, faultRecord := some { error := e, pc := s.pc } } ∧
      (s.pc ≤ 256 → e.PossibleIn s)

/-- 10_state.md section 8 (R41, decision D1; log entry 2): no instruction and no step changes the configuration. -/
def Obligations.ConfigurationNeverChanges : Prop :=
  ∀ (s t : State), step s = .next t → t.policy = s.policy

/-- The invariant of the core at reset (10_state.md section 8). -/
def Obligations.ResetMeetsTheInvariant : Prop := State.reset.Inv

/-- The invariant of the core at every launch, whatever the image and the configuration (10_state.md section 8). -/
def Obligations.LaunchMeetsTheInvariant : Prop :=
  ∀ (policy : Config.UnknownOpcodePolicy) (regInit : Vector Byte 7) (image : List Byte) (s : State),
    State.launch policy regInit image = some s → s.Inv

/-- 10_state.md sections 3 and 4 (R29, R31), 60_exceptions.md section 1 (R161 to R164): every step keeps the invariant:
memory stays canonical, `pc` stays in 0 to 256, the fault record is written exactly with `FAULTED` and holds an error that
can happen, and a halted core stands one past a HALT. -/
def Obligations.EveryStepKeepsTheInvariant : Prop :=
  ∀ (s t : State), s.Inv → step s = .next t → t.Inv

/-! ### The stack -/

/-- 43_stack.md R142 (a) (derived; 90_conflicts.md C3): a PUSH and then a POP of registers 0 to 7. The value is the decremented
stack pointer when R7 is pushed. R7 ends one above the value when R7 is popped, and as it was else. -/
def Obligations.PushThenPopMovesAValue : Prop :=
  ∀ (r q : Fin 8) (s t u : State), exec (.push (BitVec.ofNat 8 r.val)) s = .next t →
    exec (.pop (BitVec.ofNat 8 q.val)) t = .next u →
    let v := if r = 7 then s.getReg 7 + 255 else s.getReg r
    (q ≠ 7 → u.getReg q = v ∧ u.getReg 7 = s.getReg 7) ∧ (q = 7 → u.getReg 7 = v + 1)

/-- 43_stack.md R142 (b) (derived): any number of PUSHes of registers 0 to 7 lowers the stack pointer by that number,
modulo 256. -/
def Obligations.PushesLowerTheStackPointer : Prop :=
  ∀ (rs : List (Fin 8)) (s : State), ∃ t,
    execAll (rs.map fun r => .push (BitVec.ofNat 8 r.val)) s = .next t ∧
      (t.getReg 7).toNat = ((s.getReg 7).toNat + 255 * rs.length) % 256

/-- 43_stack.md R142 (c) (derived): any number of POPs of registers 0 to 6 raises the stack pointer by that number, modulo
256. -/
def Obligations.PopsRaiseTheStackPointer : Prop :=
  ∀ (rs : List (Fin 7)) (s : State), ∃ t,
    execAll (rs.map fun r => .pop (BitVec.ofNat 8 r.val)) s = .next t ∧
      (t.getReg 7).toNat = ((s.getReg 7).toNat + rs.length) % 256

/-- 43_stack.md R142 (d) (derived): last in, first out. Fewer than 256 registers of R0 to R6 pushed in one order and popped
in the reverse order come back with the values they had, and the stack pointer with them. -/
def Obligations.StackIsLastInFirstOut : Prop :=
  ∀ (rs : List (Fin 7)) (s : State), rs.length < 256 →
    ∃ t, execAll ((rs.map fun r => .push (BitVec.ofNat 8 r.val)) ++
        (rs.reverse.map fun r => .pop (BitVec.ofNat 8 r.val))) s = .next t ∧ ∀ q, t.getReg q = s.getReg q

/-- 20_memory.md section 5 (R63, derived): a byte that a PUSH stores where the next cycle fetches is the opcode byte that
the next cycle takes. -/
def Obligations.PushedByteIsFetchedNext : Prop :=
  ∀ (s t : State) (ra : Byte), step s = .next t → s.fetch = .ok (.push ra) → t.runState = .running →
    t.pc = s.pushAddress →
    ∃ (h : ra.toNat < 8) (v : Byte), t.fetchWindow.head? = some v ∧
      v = (if ra = 7 then s.getReg 7 + 255 else s.getReg ⟨ra.toNat, h⟩) ∧
      (lookupOpcode v = none → t.fetch = .error (.unknownOpcode v)) ∧ (v = 0x01 → t.fetch = .ok .halt)

/-! ### The host's view -/

/-- 10_state.md section 7, 60_exceptions.md section 1 (R31, R39, R160, decision D8: the codes are the spec's own): after an
error is taken the status reports `FAULTED`, the error's code 1 to 4, the `pc` of the faulting cycle and the offending
value. -/
def Obligations.StatusReportsTheFault : Prop :=
  ∀ (s : State) (a : Nat) (i op : Byte) (sel : BitVec 2),
    (s.raise (.invalidAddress a)).status = ⟨.faulted, some (1, s.pc, a)⟩ ∧
    (s.raise (.invalidRegister i)).status = ⟨.faulted, some (2, s.pc, i.toNat)⟩ ∧
    (s.raise (.unsupportedALUOperation sel)).status = ⟨.faulted, some (3, s.pc, sel.toNat)⟩ ∧
    (s.raise (.unknownOpcode op)).status = ⟨.faulted, some (4, s.pc, op.toNat)⟩

/-- 10_state.md section 7 (R38, decision D18): the trace snapshot holds every register, `pc` and every memory cell. -/
def Obligations.SnapshotShowsTheState : Prop :=
  ∀ s : State, s.snapshot.regs = s.regs ∧ s.snapshot.pc = s.pc ∧
    ∀ a : Fin 256, s.snapshot.cells[a] = s.mem.read a.val
end

