-- ==== Sys2Proof/Laws/Decode.lean ====
section
/-! SUPPORT. The opcode table entry by entry, and what the lookup can answer (spec/30_encoding.md R75, R77). -/

namespace Sys2Proof

@[simp] theorem lookupOpcode_halt : lookupOpcode Opcode.halt = some ⟨Opcode.halt, "HALT", .f0 .halt⟩ := rfl
@[simp] theorem lookupOpcode_push : lookupOpcode Opcode.push = some ⟨Opcode.push, "PUSH", .f1r .push⟩ := rfl
@[simp] theorem lookupOpcode_pop : lookupOpcode Opcode.pop = some ⟨Opcode.pop, "POP", .f1r .pop⟩ := rfl
@[simp] theorem lookupOpcode_prn : lookupOpcode Opcode.prn = some ⟨Opcode.prn, "PRN", .f1r .prn⟩ := rfl
@[simp] theorem lookupOpcode_ldi : lookupOpcode Opcode.ldi = some ⟨Opcode.ldi, "LDI", .f2ri .ldi⟩ := rfl
@[simp] theorem lookupOpcode_mult : lookupOpcode Opcode.mult = some ⟨Opcode.mult, "MULT", .f2rr .mult⟩ := rfl

/-! ### The operand count of each opcode (R71) -/


@[simp] theorem operandCount_halt : operandCount Opcode.halt = 0 := rfl
@[simp] theorem operandCount_push : operandCount Opcode.push = 1 := rfl
@[simp] theorem operandCount_pop : operandCount Opcode.pop = 1 := rfl
@[simp] theorem operandCount_prn : operandCount Opcode.prn = 1 := rfl
@[simp] theorem operandCount_ldi : operandCount Opcode.ldi = 2 := rfl
@[simp] theorem operandCount_mult : operandCount Opcode.mult = 2 := rfl

/-- The lookup finds one of six rows, or the opcode is unknown. -/
theorem lookupOpcode_cases (op : Byte) :
    op = Opcode.halt ∨ op = Opcode.push ∨ op = Opcode.pop ∨ op = Opcode.prn ∨ op = Opcode.ldi ∨
      op = Opcode.mult ∨ lookupOpcode op = none := by
  by_cases h₁ : op = Opcode.halt; · exact .inl h₁
  by_cases h₂ : op = Opcode.push; · exact .inr (.inl h₂)
  by_cases h₃ : op = Opcode.pop; · exact .inr (.inr (.inl h₃))
  by_cases h₄ : op = Opcode.prn; · exact .inr (.inr (.inr (.inl h₄)))
  by_cases h₅ : op = Opcode.ldi; · exact .inr (.inr (.inr (.inr (.inl h₅))))
  by_cases h₆ : op = Opcode.mult; · exact .inr (.inr (.inr (.inr (.inr (.inl h₆)))))
  have ne {a b : Byte} (h : a ≠ b) : (b == a) = false := beq_eq_false_iff_ne.mpr h.symm
  refine .inr (.inr (.inr (.inr (.inr (.inr ?_)))))
  simp only [lookupOpcode, opcodeTable, List.find?_cons, List.find?_nil, ne h₁, ne h₂, ne h₃, ne h₄, ne h₅, ne h₆]

end Sys2Proof
end

