-- ==== Sys2Proof/Laws/Memory.lean ====
section
/-! SUPPORT. Memory: what a read gives after a write, and that every operation keeps the canonical form. -/

namespace Sys2Proof.Machine

@[simp] theorem Memory.read_nil (a : Nat) : Memory.read [] a = Config.memFill := rfl

theorem Memory.read_cons (b : Nat) (v : Byte) (m : Memory) (a : Nat) :
    Memory.read ((b, v) :: m) a = if a = b then v else Memory.read m a := rfl

theorem Memory.read_insertCell_self (m : Memory) (a : Nat) (v : Byte) (h : ∀ c ∈ m, c.1 ≠ a) :
    Memory.read (Memory.insertCell a v m) a = v := by
  induction m with
  | nil => simp [Memory.insertCell, Memory.read]
  | cons c m ih =>
    obtain ⟨b, w⟩ := c
    have hb : a ≠ b := fun e => h (b, w) (by simp) e.symm
    have hm : ∀ c ∈ m, c.1 ≠ a := fun c hc => h c (List.mem_cons_of_mem _ hc)
    unfold Memory.insertCell
    split <;> simp [Memory.read, hb, ih hm]

theorem Memory.read_insertCell_ne (m : Memory) {a b : Nat} (v : Byte) (h : b ≠ a) :
    Memory.read (Memory.insertCell a v m) b = Memory.read m b := by
  induction m with
  | nil => simp [Memory.insertCell, Memory.read, h]
  | cons c m ih =>
    unfold Memory.insertCell
    split <;> simp [Memory.read, h, ih]

theorem Memory.read_filter_self (m : Memory) (a : Nat) :
    Memory.read (m.filter fun c => c.1 ≠ a) a = Config.memFill := by
  induction m with
  | nil => rfl
  | cons c m ih =>
    obtain ⟨b, w⟩ := c
    by_cases hb : b = a
    · simpa [List.filter, hb] using ih
    · simpa [List.filter, hb, Memory.read, Ne.symm hb] using ih

theorem Memory.read_filter_ne (m : Memory) {a b : Nat} (h : b ≠ a) :
    Memory.read (m.filter fun c => c.1 ≠ a) b = Memory.read m b := by
  induction m with
  | nil => rfl
  | cons c m ih =>
    obtain ⟨d, w⟩ := c
    by_cases hd : d = a
    · subst hd
      simpa [List.filter, Memory.read, h] using ih
    · simp only [ne_eq, decide_not] at ih
      simp [List.filter, hd, Memory.read, ih]

/-- A read after a write to the same address (R60). -/
@[simp] theorem Memory.read_write_self (m : Memory) (a : Nat) (v : Byte) : (m.write a v).read a = v := by
  unfold Memory.write
  split
  · rename_i hv
    rw [Memory.read_filter_self, hv]
  · exact Memory.read_insertCell_self _ a v (by simp)

/-- A write leaves every other address alone (R53). -/
theorem Memory.read_write_ne (m : Memory) {a b : Nat} (v : Byte) (h : b ≠ a) :
    (m.write a v).read b = m.read b := by
  unfold Memory.write
  split
  · exact Memory.read_filter_ne m h
  · rw [Memory.read_insertCell_ne _ v h]
    exact Memory.read_filter_ne m h

theorem Memory.read_write (m : Memory) (a b : Nat) (v : Byte) :
    (m.write a v).read b = if b = a then v else m.read b := by
  by_cases h : b = a
  · subst h; simp
  · simp [h, Memory.read_write_ne m v h]

/-! ### The canonical form -/

theorem Memory.wf_cons {a : Nat} {v : Byte} {m : Memory} : Memory.wf ((a, v) :: m) = true ↔
    a < Config.memSize ∧ v ≠ Config.memFill ∧ (∀ c ∈ m, a < c.1) ∧ Memory.wf m = true := by
  simp [Memory.wf, and_assoc]

theorem Memory.wf_filter {m : Memory} (p : Host.Cell → Bool) (h : m.wf = true) :
    Memory.wf (m.filter p) = true := by
  induction m with
  | nil => exact h
  | cons c m ih =>
    obtain ⟨b, w⟩ := c
    obtain ⟨hb, hw, hm, hwf⟩ := Memory.wf_cons.mp h
    cases hp : p (b, w) with
    | false => simpa [List.filter, hp] using ih hwf
    | true =>
      simp only [List.filter, hp]
      exact Memory.wf_cons.mpr ⟨hb, hw, fun c hc => hm c (List.mem_of_mem_filter hc), ih hwf⟩

theorem Memory.mem_insertCell {a : Nat} {v : Byte} {m : Memory} {c : Host.Cell}
    (h : c ∈ Memory.insertCell a v m) : c = (a, v) ∨ c ∈ m := by
  induction m with
  | nil => simpa [Memory.insertCell] using h
  | cons d m ih =>
    unfold Memory.insertCell at h
    split at h
    · simpa using h
    · rcases List.mem_cons.mp h with rfl | h
      · simp
      · rcases ih h with rfl | h <;> simp [*]

theorem Memory.wf_insertCell {m : Memory} {a : Nat} {v : Byte} (h : m.wf = true) (ha : a < Config.memSize)
    (hv : v ≠ Config.memFill) (hne : ∀ c ∈ m, c.1 ≠ a) : Memory.wf (Memory.insertCell a v m) = true := by
  induction m with
  | nil => exact Memory.wf_cons.mpr ⟨ha, hv, by simp, rfl⟩
  | cons c m ih =>
    obtain ⟨b, w⟩ := c
    obtain ⟨hb, hw, hm, hwf⟩ := Memory.wf_cons.mp h
    have hab : b ≠ a := hne (b, w) (by simp)
    have hne' : ∀ c ∈ m, c.1 ≠ a := fun c hc => hne c (List.mem_cons_of_mem _ hc)
    unfold Memory.insertCell
    split
    · rename_i hlt
      refine Memory.wf_cons.mpr ⟨ha, hv, fun c hc => ?_, h⟩
      rcases List.mem_cons.mp hc with rfl | hc
      · exact hlt
      · exact lt_trans hlt (hm c hc)
    · refine Memory.wf_cons.mpr ⟨hb, hw, fun c hc => ?_, ih hwf hne'⟩
      rcases Memory.mem_insertCell hc with rfl | hc
      · show b < a
        omega
      · exact hm c hc

/-- A write to a cell that exists keeps the canonical form. -/
theorem Memory.wf_write {m : Memory} {a : Nat} (v : Byte) (h : m.wf = true) (ha : a < Config.memSize) :
    (m.write a v).wf = true := by
  unfold Memory.write
  split
  · exact Memory.wf_filter _ h
  · rename_i hv
    exact Memory.wf_insertCell (Memory.wf_filter _ h) ha hv (by simp)

/-- A load keeps the canonical form. -/
theorem Memory.wf_load {m : Memory} (a : Nat) (bytes : List Byte) (h : m.wf = true) :
    (m.load a bytes).wf = true := by
  induction bytes generalizing m a with
  | nil => exact h
  | cons b bytes ih =>
    unfold Memory.load
    split
    · exact ih _ (Memory.wf_write b h ‹_›)
    · exact ih _ h

/-- A checked write keeps the canonical form (R52). -/
theorem State.memWrite_wf {s t : State} {a : Nat} {v : Byte} (h : s.memWrite a v = .ok t) (hm : s.mem.wf = true) :
    t.mem.wf = true := by
  unfold State.memWrite at h
  split at h
  · cases h
    exact Memory.wf_write v hm ‹_›
  · cases h

/-- Memory at reset is in canonical form. -/
theorem State.reset_mem_wf : State.reset.mem.wf = true := rfl

/-- What an address holds after a load (R193). -/
theorem Memory.read_load (m : Memory) (a : Nat) (bytes : List Byte) (b : Nat) :
    (m.load a bytes).read b =
      if h : a ≤ b ∧ b < a + bytes.length ∧ b < Config.memSize then bytes[b - a]'(by omega) else m.read b := by
  induction bytes generalizing m a with
  | nil =>
    have : ¬(a ≤ b ∧ b < a + ([] : List Byte).length ∧ b < Config.memSize) := by simp; omega
    rw [dif_neg this]; rfl
  | cons v bytes ih =>
    unfold Memory.load
    rw [ih]
    by_cases hba : b = a
    · subst hba
      by_cases hs : b < Config.memSize
      · simp [hs]
      · simp [hs]
    · by_cases hr : a ≤ b ∧ b < a + (v :: bytes).length ∧ b < Config.memSize
      · have hlen : (v :: bytes).length = bytes.length + 1 := rfl
        have hr' : a + 1 ≤ b ∧ b < a + 1 + bytes.length ∧ b < Config.memSize := by omega
        rw [dif_pos hr, dif_pos hr']
        have : b - a = (b - (a + 1)) + 1 := by omega
        simp [this]
      · have hlen : (v :: bytes).length = bytes.length + 1 := rfl
        have hr' : ¬(a + 1 ≤ b ∧ b < a + 1 + bytes.length ∧ b < Config.memSize) := by omega
        rw [dif_neg hr, dif_neg hr']
        split
        · exact Memory.read_write_ne m v hba
        · rfl

end Sys2Proof.Machine
end

