-- ==== Sys2Proof/Laws/State.lean ====
section
/-! SUPPORT. One lemma per field of the state per update of it, all true by unfolding, so that no proof unfolds a
record update. -/

namespace Sys2Proof.Machine

@[simp] theorem State.setReg_regs (s : State) (r : Fin 8) (v : Byte) : (s.setReg r v).regs = s.regs.set r.val v r.isLt := rfl
@[simp] theorem State.setReg_pc (s : State) (r : Fin 8) (v : Byte) : (s.setReg r v).pc = s.pc := rfl
@[simp] theorem State.setReg_mem (s : State) (r : Fin 8) (v : Byte) : (s.setReg r v).mem = s.mem := rfl
@[simp] theorem State.setReg_runState (s : State) (r : Fin 8) (v : Byte) : (s.setReg r v).runState = s.runState := rfl
@[simp] theorem State.setReg_faultRecord (s : State) (r : Fin 8) (v : Byte) : (s.setReg r v).faultRecord = s.faultRecord := rfl
@[simp] theorem State.setReg_output (s : State) (r : Fin 8) (v : Byte) : (s.setReg r v).output = s.output := rfl
@[simp] theorem State.setReg_policy (s : State) (r : Fin 8) (v : Byte) : (s.setReg r v).policy = s.policy := rfl

@[simp] theorem State.setSp_regs (s : State) (v : Byte) : (s.setSp v).regs = s.regs.set 7 v := rfl
@[simp] theorem State.setSp_pc (s : State) (v : Byte) : (s.setSp v).pc = s.pc := rfl
@[simp] theorem State.setSp_mem (s : State) (v : Byte) : (s.setSp v).mem = s.mem := rfl
@[simp] theorem State.setSp_runState (s : State) (v : Byte) : (s.setSp v).runState = s.runState := rfl
@[simp] theorem State.setSp_faultRecord (s : State) (v : Byte) : (s.setSp v).faultRecord = s.faultRecord := rfl
@[simp] theorem State.setSp_output (s : State) (v : Byte) : (s.setSp v).output = s.output := rfl
@[simp] theorem State.setSp_policy (s : State) (v : Byte) : (s.setSp v).policy = s.policy := rfl

@[simp] theorem State.emit_regs (s : State) (v : Byte) : (s.emit v).regs = s.regs := rfl
@[simp] theorem State.emit_pc (s : State) (v : Byte) : (s.emit v).pc = s.pc := rfl
@[simp] theorem State.emit_mem (s : State) (v : Byte) : (s.emit v).mem = s.mem := rfl
@[simp] theorem State.emit_runState (s : State) (v : Byte) : (s.emit v).runState = s.runState := rfl
@[simp] theorem State.emit_faultRecord (s : State) (v : Byte) : (s.emit v).faultRecord = s.faultRecord := rfl
@[simp] theorem State.emit_output (s : State) (v : Byte) : (s.emit v).output = s.output ++ [v] := rfl
@[simp] theorem State.emit_policy (s : State) (v : Byte) : (s.emit v).policy = s.policy := rfl

@[simp] theorem State.halt_regs (s : State) : s.halt.regs = s.regs := rfl
@[simp] theorem State.halt_pc (s : State) : s.halt.pc = s.pc := rfl
@[simp] theorem State.halt_mem (s : State) : s.halt.mem = s.mem := rfl
@[simp] theorem State.halt_runState (s : State) : s.halt.runState = .halted := rfl
@[simp] theorem State.halt_faultRecord (s : State) : s.halt.faultRecord = s.faultRecord := rfl
@[simp] theorem State.halt_output (s : State) : s.halt.output = s.output := rfl
@[simp] theorem State.halt_policy (s : State) : s.halt.policy = s.policy := rfl

@[simp] theorem State.raise_regs (s : State) (e : CoreError) : (s.raise e).regs = s.regs := rfl
@[simp] theorem State.raise_pc (s : State) (e : CoreError) : (s.raise e).pc = s.pc := rfl
@[simp] theorem State.raise_mem (s : State) (e : CoreError) : (s.raise e).mem = s.mem := rfl
@[simp] theorem State.raise_runState (s : State) (e : CoreError) : (s.raise e).runState = .faulted := rfl
@[simp] theorem State.raise_faultRecord (s : State) (e : CoreError) : (s.raise e).faultRecord = some { error := e, pc := s.pc } := rfl
@[simp] theorem State.raise_output (s : State) (e : CoreError) : (s.raise e).output = s.output := rfl
@[simp] theorem State.raise_policy (s : State) (e : CoreError) : (s.raise e).policy = s.policy := rfl

@[simp] theorem State.advance_regs (s : State) (op : Byte) : (s.advance op).regs = s.regs := rfl
@[simp] theorem State.advance_pc (s : State) (op : Byte) : (s.advance op).pc = s.pc + operandCount op + 1 := rfl
@[simp] theorem State.advance_mem (s : State) (op : Byte) : (s.advance op).mem = s.mem := rfl
@[simp] theorem State.advance_runState (s : State) (op : Byte) : (s.advance op).runState = s.runState := rfl
@[simp] theorem State.advance_faultRecord (s : State) (op : Byte) : (s.advance op).faultRecord = s.faultRecord := rfl
@[simp] theorem State.advance_output (s : State) (op : Byte) : (s.advance op).output = s.output := rfl
@[simp] theorem State.advance_policy (s : State) (op : Byte) : (s.advance op).policy = s.policy := rfl

/-! ### Registers after an update -/

@[simp] theorem State.getReg_setReg_self (s : State) (r : Fin 8) (v : Byte) : (s.setReg r v).getReg r = v := by
  simp [State.getReg]

theorem State.getReg_setReg_ne (s : State) {r q : Fin 8} (h : q ≠ r) (v : Byte) :
    (s.setReg r v).getReg q = s.getReg q := by
  have : r.val ≠ q.val := fun e => h (Fin.ext e.symm)
  simp [State.getReg, Vector.getElem_set_ne, this]

theorem State.getReg_setReg (s : State) (r q : Fin 8) (v : Byte) :
    (s.setReg r v).getReg q = if q = r then v else s.getReg q := by
  by_cases h : q = r
  · subst h; simp
  · simp [State.getReg_setReg_ne s h, h]

theorem State.sp_eq (s : State) : s.sp = s.getReg 7 := rfl

@[simp] theorem State.sp_setSp (s : State) (v : Byte) : (s.setSp v).sp = v :=
  State.getReg_setReg_self s _ v

theorem State.getReg_setSp (s : State) (q : Fin 8) (v : Byte) :
    (s.setSp v).getReg q = if q = 7 then v else s.getReg q :=
  State.getReg_setReg s _ q v

@[simp] theorem State.getReg_emit (s : State) (v : Byte) (q : Fin 8) : (s.emit v).getReg q = s.getReg q := rfl
@[simp] theorem State.sp_emit (s : State) (v : Byte) : (s.emit v).sp = s.sp := rfl
@[simp] theorem State.getReg_halt (s : State) (q : Fin 8) : s.halt.getReg q = s.getReg q := rfl
@[simp] theorem State.sp_halt (s : State) : s.halt.sp = s.sp := rfl
@[simp] theorem State.getReg_raise (s : State) (e : CoreError) (q : Fin 8) : (s.raise e).getReg q = s.getReg q := rfl
@[simp] theorem State.sp_raise (s : State) (e : CoreError) : (s.raise e).sp = s.sp := rfl
@[simp] theorem State.getReg_advance (s : State) (op : Byte) (q : Fin 8) : (s.advance op).getReg q = s.getReg q := rfl
@[simp] theorem State.sp_advance (s : State) (op : Byte) : (s.advance op).sp = s.sp := rfl

end Sys2Proof.Machine
end

