-- ==== Sys2Proof/Laws/Ops.lean ====
section
/-! SUPPORT. Each shared operation once: everything it can do. -/

namespace Sys2Proof.Machine

/-! ### `Except` in the pseudocode's sequences -/

@[simp] theorem except_ok_bind {ε α β : Type} (a : α) (f : α → Except ε β) : (Except.ok a >>= f) = f a := rfl

@[simp] theorem except_error_bind {ε α β : Type} (e : ε) (f : α → Except ε β) :
    (Except.error e >>= f) = Except.error e := rfl

@[simp] theorem except_pure {ε α : Type} (a : α) : (pure a : Except ε α) = .ok a := rfl

/-- A sequence that completes completed in both parts. -/
theorem except_bind_ok {ε α β : Type} {x : Except ε α} {f : α → Except ε β} {b : β} (h : (x >>= f) = .ok b) :
    ∃ a, x = .ok a ∧ f a = .ok b := by
  cases x with
  | ok a => exact ⟨a, rfl, h⟩
  | error e => exact absurd h (by simp)

/-! ### Memory accesses (R51, R52) -/

theorem State.memRead_of_lt (s : State) {a : Nat} (h : a < 256) : s.memRead a = .ok (s.mem.read a) :=
  if_pos h

theorem State.memRead_of_ge (s : State) {a : Nat} (h : 256 ≤ a) : s.memRead a = .error (.invalidAddress a) :=
  if_neg (Nat.not_lt.mpr h)

/-- A read that completes was in range. -/
theorem State.memRead_ok {s : State} {a : Nat} {b : Byte} (h : s.memRead a = .ok b) :
    a < 256 ∧ s.mem.read a = b := by
  by_cases ha : a < 256
  · rw [s.memRead_of_lt ha] at h
    cases h
    exact ⟨ha, rfl⟩
  · rw [s.memRead_of_ge (Nat.not_lt.mp ha)] at h
    cases h

theorem State.memWrite_of_lt (s : State) {a : Nat} (v : Byte) (h : a < 256) :
    s.memWrite a v = .ok { s with mem := s.mem.write a v } :=
  if_pos h

theorem State.memWrite_of_ge (s : State) {a : Nat} (v : Byte) (h : 256 ≤ a) :
    s.memWrite a v = .error (.invalidAddress a) :=
  if_neg (Nat.not_lt.mpr h)

/-- A stack access is always in range (R27). -/
@[simp] theorem State.memRead_byte (s : State) (a : Byte) : s.memRead a.toNat = .ok (s.mem.read a.toNat) :=
  s.memRead_of_lt a.isLt

@[simp] theorem State.memWrite_byte (s : State) (a v : Byte) :
    s.memWrite a.toNat v = .ok { s with mem := s.mem.write a.toNat v } :=
  s.memWrite_of_lt v a.isLt

/-! ### Register operands (R22) -/

theorem State.readOperand_of_lt (s : State) {i : Byte} (h : i.toNat < 8) :
    s.readOperand i = .ok (s.getReg ⟨i.toNat, h⟩) :=
  dif_pos h

theorem State.readOperand_of_ge (s : State) {i : Byte} (h : 8 ≤ i.toNat) :
    s.readOperand i = .error (.invalidRegister i) :=
  dif_neg (Nat.not_lt.mpr h)

theorem State.writeOperand_of_lt (s : State) {i : Byte} (v : Byte) (h : i.toNat < 8) :
    s.writeOperand i v = .ok (s.setReg ⟨i.toNat, h⟩ v) :=
  dif_pos h

theorem State.writeOperand_of_ge (s : State) {i : Byte} (v : Byte) (h : 8 ≤ i.toNat) :
    s.writeOperand i v = .error (.invalidRegister i) :=
  dif_neg (Nat.not_lt.mpr h)

/-! ### The ALU (R131 to R133) -/

theorem aluApply_add (a b : Byte) : aluApply aluAdd a b = .ok (BitVec.ofNat 8 ((a.toNat + b.toNat) % 256)) := rfl

theorem aluApply_mul (a b : Byte) : aluApply aluMul a b = .ok (BitVec.ofNat 8 ((a.toNat * b.toNat) % 256)) := rfl

/-! ### The end of a cycle (R104, R110) -/

@[simp] theorem State.endCycle_ok (s t : State) (op : Byte) : s.endCycle op (.ok t) = .next (t.advance op) := rfl

@[simp] theorem State.endCycle_error (s : State) (op : Byte) (e : CoreError) :
    s.endCycle op (.error e) = .next (s.raise e) := rfl

/-- A cycle's end is always a next state: the effect advanced, or the error taken. -/
theorem State.endCycle_cases (s : State) (op : Byte) (r : Except CoreError State) :
    (∃ t, r = .ok t ∧ s.endCycle op r = .next (t.advance op)) ∨
      (∃ e, r = .error e ∧ s.endCycle op r = .next (s.raise e)) := by
  cases r with
  | ok t => exact .inl ⟨t, rfl, rfl⟩
  | error e => exact .inr ⟨e, rfl, rfl⟩

/-! ### The step (R100) -/

theorem step_running {s : State} (h : s.runState = .running) : step s = s.cycle := by
  simp [step, h]

/-- A step that answers a next state was a cycle of a running core. -/
theorem step_next {s t : State} (h : step s = .next t) : s.runState = .running ∧ s.cycle = .next t := by
  unfold step at h
  split at h
  · exact ⟨‹_›, h⟩
  · cases h
  · cases h

end Sys2Proof.Machine
end

