-- ==== Sys2Proof/Laws/Fetch.lean ====
section
/-! SUPPORT. Everything a fetch can do, in the order in which the bytes are read (spec/40_cycle.md R101, R102, R109). -/

namespace Sys2Proof.Machine

/-- The bytes at `pc`, by how far `pc` stands from the end of memory. -/
theorem State.fetchWindow_eq (s : State) : s.fetchWindow =
    if s.pc + 2 < 256 then [s.mem.read s.pc, s.mem.read (s.pc + 1), s.mem.read (s.pc + 2)]
    else if s.pc + 1 < 256 then [s.mem.read s.pc, s.mem.read (s.pc + 1)]
    else if s.pc < 256 then [s.mem.read s.pc] else [] := by
  simp only [State.fetchWindow, maxLength, State.bytesFrom]
  by_cases h₀ : s.pc < 256
  · by_cases h₁ : s.pc + 1 < 256
    · by_cases h₂ : s.pc + 2 < 256
      · simp [s.memRead_of_lt, h₀, h₁, h₂]
      · simp [s.memRead_of_lt, s.memRead_of_ge (Nat.not_lt.mp h₂), h₀, h₁, h₂]
    · have h₂ : ¬s.pc + 2 < 256 := by omega
      simp [s.memRead_of_lt, s.memRead_of_ge (Nat.not_lt.mp h₁), h₀, h₁, h₂]
  · have h₁ : ¬s.pc + 1 < 256 := by omega
    have h₂ : ¬s.pc + 2 < 256 := by omega
    simp [s.memRead_of_ge (Nat.not_lt.mp h₀), h₀, h₁, h₂]

/-- The operand bytes of a format read from memory after `pc`, in increasing address order. -/
def State.readOperandBytes (s : State) : Layout → Except CoreError Instr
  | .f0 i => .ok i
  | .f1r make => do
    let ra ← s.memRead (s.pc + 1)
    pure (make ra)
  | .f2rr make => do
    let ra ← s.memRead (s.pc + 1)
    let rb ← s.memRead (s.pc + 2)
    pure (make ra rb)
  | .f2ri make => do
    let ra ← s.memRead (s.pc + 1)
    let imm ← s.memRead (s.pc + 2)
    pure (make ra imm)

/-- A fetch reads the opcode byte, looks it up, and then reads the operand bytes its format has. -/
theorem State.fetch_eq (s : State) : s.fetch = (do
    let op ← s.memRead s.pc
    match lookupOpcode op with
    | none => .error (.unknownOpcode op)
    | some row => s.readOperandBytes row.layout) := by
  unfold State.fetch
  rw [State.fetchWindow_eq]
  by_cases h₀ : s.pc < 256
  · rw [s.memRead_of_lt h₀, except_ok_bind]
    by_cases h₁ : s.pc + 1 < 256
    · by_cases h₂ : s.pc + 2 < 256
      · cases hl : lookupOpcode (s.mem.read s.pc) with
        | none => simp [h₂, decode, hl]
        | some row =>
          cases hlay : row.layout <;>
            simp [h₂, decode, hl, hlay, Layout.takeOperands, State.readOperandBytes, s.memRead_of_lt h₁,
              s.memRead_of_lt h₂]
      · cases hl : lookupOpcode (s.mem.read s.pc) with
        | none => simp [h₁, h₂, decode, hl]
        | some row =>
          cases hlay : row.layout <;>
            simp [h₁, h₂, decode, hl, hlay, Layout.takeOperands, State.readOperandBytes, s.memRead_of_lt h₁,
              s.memRead_of_ge (Nat.not_lt.mp h₂)]
    · have h₂ : ¬s.pc + 2 < 256 := by omega
      cases hl : lookupOpcode (s.mem.read s.pc) with
      | none => simp [h₀, h₁, h₂, decode, hl]
      | some row =>
        cases hlay : row.layout <;>
          simp [h₀, h₁, h₂, decode, hl, hlay, Layout.takeOperands, State.readOperandBytes,
            s.memRead_of_ge (Nat.not_lt.mp h₁)]
  · have h₁ : ¬s.pc + 1 < 256 := by omega
    have h₂ : ¬s.pc + 2 < 256 := by omega
    simp [h₀, h₁, h₂, decode, s.memRead_of_ge (Nat.not_lt.mp h₀)]

/-- The fetch of each opcode, and of an unknown one. -/
theorem State.fetch_of_opcode (s : State) (h : s.pc < 256) :
    (s.mem.read s.pc = Opcode.halt → s.fetch = .ok .halt) ∧
    (s.mem.read s.pc = Opcode.push → s.fetch = s.readOperandBytes (.f1r .push)) ∧
    (s.mem.read s.pc = Opcode.pop → s.fetch = s.readOperandBytes (.f1r .pop)) ∧
    (s.mem.read s.pc = Opcode.prn → s.fetch = s.readOperandBytes (.f1r .prn)) ∧
    (s.mem.read s.pc = Opcode.ldi → s.fetch = s.readOperandBytes (.f2ri .ldi)) ∧
    (s.mem.read s.pc = Opcode.mult → s.fetch = s.readOperandBytes (.f2rr .mult)) ∧
    (lookupOpcode (s.mem.read s.pc) = none → s.fetch = .error (.unknownOpcode (s.mem.read s.pc))) := by
  rw [State.fetch_eq, s.memRead_of_lt h, except_ok_bind]
  refine ⟨?_, ?_, ?_, ?_, ?_, ?_, ?_⟩ <;> intro e <;> simp only [e] <;> rfl

/-- What the operand bytes of a format can give: an instruction, or the first address outside memory. -/
theorem State.readOperandBytes_cases (s : State) (hpc : s.pc < 256) (l : Layout) :
    (∃ i, s.readOperandBytes l = .ok i) ∨ s.readOperandBytes l = .error (.invalidAddress 256) := by
  have h256 : s.memRead 256 = .error (.invalidAddress 256) := s.memRead_of_ge le_rfl
  by_cases h₁ : s.pc + 1 < 256
  · by_cases h₂ : s.pc + 2 < 256
    · exact .inl (by cases l <;> simp [State.readOperandBytes, s.memRead_of_lt h₁, s.memRead_of_lt h₂])
    · have e : s.pc + 2 = 256 := by omega
      cases l <;> simp [State.readOperandBytes, s.memRead_of_lt h₁, e, h256]
  · have e : s.pc + 1 = 256 := by omega
    cases l <;> simp [State.readOperandBytes, e, h256]

/-- Everything a fetch can do: give an instruction, meet an address outside memory (256 when `pc` is 0 to 256), or
meet an unknown opcode at `pc`. -/
theorem State.fetch_cases (s : State) :
    (∃ i, s.fetch = .ok i) ∨ (∃ a, s.fetch = .error (.invalidAddress a) ∧ (s.pc ≤ 256 → a = 256)) ∨
      (s.fetch = .error (.unknownOpcode (s.mem.read s.pc)) ∧ s.pc < 256 ∧
        lookupOpcode (s.mem.read s.pc) = none) := by
  have hf := s.fetch_eq
  by_cases hpc : s.pc < 256
  · rw [s.memRead_of_lt hpc, except_ok_bind] at hf
    cases hl : lookupOpcode (s.mem.read s.pc) with
    | none => exact .inr (.inr ⟨by simpa [hl] using hf, hpc, rfl⟩)
    | some row =>
      simp only [hl] at hf
      rcases s.readOperandBytes_cases hpc row.layout with ⟨i, hi⟩ | he
      · exact .inl ⟨i, hf.trans hi⟩
      · exact .inr (.inl ⟨256, hf.trans he, fun _ => rfl⟩)
  · rw [s.memRead_of_ge (Nat.not_lt.mp hpc)] at hf
    exact .inr (.inl ⟨s.pc, hf, by omega⟩)

/-- Everything a step that answers a next state can have done. -/
theorem step_cases {s t : State} (h : step s = .next t) : s.runState = .running ∧
    ((∃ i, s.fetch = .ok i ∧ exec i s = .next t) ∨
      (∃ a, s.fetch = .error (.invalidAddress a) ∧ (s.pc ≤ 256 → a = 256) ∧ t = s.raise (.invalidAddress a)) ∨
      (∃ op, s.fetch = .error (.unknownOpcode op) ∧ s.pc < 256 ∧ s.mem.read s.pc = op ∧ lookupOpcode op = none ∧
        s.unknownOpcode op = .next t)) := by
  obtain ⟨hs, hc⟩ := step_next h
  refine ⟨hs, ?_⟩
  rcases s.fetch_cases with ⟨i, hi⟩ | ⟨a, ha, hle⟩ | ⟨hu, hpc, hl⟩
  · exact .inl ⟨i, hi, by simpa [State.cycle, hi] using hc⟩
  · refine .inr (.inl ⟨a, ha, hle, ?_⟩)
    simpa [State.cycle, ha, eq_comm] using hc
  · exact .inr (.inr ⟨_, hu, hpc, rfl, hl, by simpa [State.cycle, hu] using hc⟩)

end Sys2Proof.Machine
end

