-- ==== Sys2Proof/Laws/PerInstr.lean ====
section
/-! SUPPORT. Per-instruction laws about the instruction as syntax.

`EncodedLength`: the length of an instruction is its opcode's operand count and one more (spec/30_encoding.md R70,
R71). -/

namespace Sys2Proof.Laws.EncodedLength

/-- The encoding has `op[7:6] + 1` bytes, and the opcode byte is the first (R70). -/
def Statement (i : Instr) : Prop :=
  (encode i).length = operandCount i.opcode + 1 ∧ (encode i).head? = some i.opcode

theorem halt : Statement .halt := ⟨rfl, rfl⟩
theorem push (ra : Byte) : Statement (.push ra) := ⟨by simp [encode, Instr.operands, Instr.opcode], rfl⟩
theorem pop (ra : Byte) : Statement (.pop ra) := ⟨by simp [encode, Instr.operands, Instr.opcode], rfl⟩
theorem prn (ra : Byte) : Statement (.prn ra) := ⟨by simp [encode, Instr.operands, Instr.opcode], rfl⟩
theorem ldi (ra imm : Byte) : Statement (.ldi ra imm) := ⟨by simp [encode, Instr.operands, Instr.opcode], rfl⟩
theorem mult (ra rb : Byte) : Statement (.mult ra rb) := ⟨by simp [encode, Instr.operands, Instr.opcode], rfl⟩

end Sys2Proof.Laws.EncodedLength
end

