-- ==== Sys2Proof/Tests/Slice0.lean ====
section
/-! SUPPORT. The model's own tests. Expected results come from spec/30_encoding.md R81 (words) and from the vectors of
spec/95_test_vectors.md (V<n>), which start with R0 = 11, R1 = 22, ... R6 = 77, R7 = F4 in hexadecimal. The theorems named
witness_<Obligation> show states and operands that meet an obligation's hypotheses. -/

namespace Sys2Proof.Tests

open Sys2Proof.Machine

/-- The registers of the vectors' start state. -/
def vectorRegs : Vector Byte 8 := #v[0x11, 0x22, 0x33, 0x44, 0x55, 0x66, 0x77, 0xF4]

/-- A running state with the vectors' registers and some bytes at `pc`. -/
def codeAt (pc : Nat) (bytes : List Byte) : State :=
  { State.reset with regs := vectorRegs, pc := pc, mem := Memory.load [] pc bytes }

/-- The same with one register changed. -/
def codeAtWith (pc : Nat) (bytes : List Byte) (r : Fin 8) (v : Byte) : State := (codeAt pc bytes).setReg r v

/-- The next state of an outcome. -/
def nextOf : Host.Outcome State Fault Refusal → Option State
  | .next t => some t
  | .fault _ => none
  | .refused _ => none

/-- What a step leaves, seen through `f`. -/
def afterStep {α : Type} (s : State) (f : State → α) : Option α := (nextOf (step s)).map f

/-- The run state and the fault record of a fault of kind `e` at `pc`. -/
def faultedWith (e : CoreError) (pc : Nat) : RunState × Option FaultRecord := (.faulted, some { error := e, pc := pc })

/-! ### Well-formedness and spelling (R81) -/

theorem test_wellFormed_accepts : (Instr.wellFormed .halt && Instr.wellFormed (.push 7) && Instr.wellFormed (.pop 0) &&
    Instr.wellFormed (.prn 7) && Instr.wellFormed (.ldi 7 255) && Instr.wellFormed (.mult 7 7)) = true := by decide

theorem test_wellFormed_refuses_push_8 : Instr.wellFormed (.push 8) = false := by decide
theorem test_wellFormed_refuses_pop_8 : Instr.wellFormed (.pop 8) = false := by decide
theorem test_wellFormed_refuses_prn_255 : Instr.wellFormed (.prn 255) = false := by decide
theorem test_wellFormed_refuses_ldi_8 : Instr.wellFormed (.ldi 8 0) = false := by decide
theorem test_wellFormed_refuses_mult_8_0 : Instr.wellFormed (.mult 8 0) = false := by decide
theorem test_wellFormed_refuses_mult_0_8 : Instr.wellFormed (.mult 0 8) = false := by decide

theorem test_assembly_of_ldi : Instr.assembly (.ldi 0 8) = some "LDI R0, 8" := by decide
theorem test_assembly_of_mult : Instr.assembly (.mult 0 1) = some "MULT R0, R1" := by decide
theorem test_assembly_of_invalid_register : Instr.assembly (.push 8) = none := by decide

/-! ### Decoding (R75, R81) -/

theorem test_decode_halt : decode [0b00000001] = .ok (.halt, []) := rfl
theorem test_decode_push : decode [0b01000101, 0b00000010] = .ok (.push 2, []) := rfl
theorem test_decode_pop : decode [0b01000110, 0b00000011] = .ok (.pop 3, []) := rfl
theorem test_decode_prn : decode [0b01000111, 0b11001000] = .ok (.prn 200, []) := rfl
theorem test_decode_ldi : decode [0b10000010, 0b00000001, 0b00000111] = .ok (.ldi 1 7, []) := rfl
theorem test_decode_mult : decode [0b10100010, 0b00000111, 0b00000001] = .ok (.mult 7 1, []) := rfl
theorem test_decode_leaves_the_rest : decode [0x01, 0x47, 0x00] = .ok (.halt, [0x47, 0x00]) := rfl
theorem test_decode_refuses_add : decode [0xA0, 0x00, 0x01] = .error (.unknownOpcode 0xA0) := rfl
theorem test_table_word_of_ldi : decodeTableWord 24 0x080182 = some (.ldi 1 8) := by decide
theorem test_table_word_without_operand_bits : decodeTableWord 8 0xFF45 = some (.push 0) := by decide

theorem test_fetch_word_runs_at_reset :
    afterStep (State.reset.withFetchWord 24 0x080182) (fun t => (t.getReg 1, t.pc)) = some (8, 3) := by decide

/-! ### One step of each instruction -/

/-- V12 -/
theorem test_ldi_moves_the_stack_pointer :
    afterStep (codeAt 0x00 [0x82, 0x07, 0x10]) (fun t => (t.sp, t.pc)) = some (0x10, 3) := by decide

/-- V14: the immediate's read comes before the register check. -/
theorem test_ldi_at_the_end_of_memory :
    afterStep (codeAt 0xFE [0x82, 0x09]) (fun t => (t.runState, t.faultRecord)) =
      some (faultedWith (.invalidAddress 256) 254) := by decide

/-- V22 -/
theorem test_prn_is_unsigned :
    afterStep (codeAtWith 0x00 [0x47, 0x01] 1 0xFF) (fun t => (t.output, t.outputLines)) = some ([0xFF], ["255"]) := by
  decide

/-- V23 -/
theorem test_prn_invalid_register :
    afterStep (codeAt 0x00 [0x47, 0xC8]) (fun t => (t.output, t.runState, t.faultRecord)) =
      some ([], faultedWith (.invalidRegister 200) 0) := by decide

/-- V45 -/
theorem test_mult_wraps_in_the_stack_pointer :
    afterStep (codeAtWith 0x00 [0xA2, 0x07, 0x01] 1 0x02) (fun t => (t.sp, t.pc)) = some (0xE8, 3) := by decide

/-- V47: the first operand is checked first. -/
theorem test_mult_invalid_registers :
    afterStep (codeAt 0x00 [0xA2, 0x08, 0x09]) (fun t => (t.runState, t.faultRecord)) =
      some (faultedWith (.invalidRegister 8) 0) := by decide

/-- V52: the decremented stack pointer is pushed. V53: a PUSH that raises keeps the stack pointer (R110). -/
theorem test_push_of_the_stack_pointer_and_of_no_register :
    afterStep (codeAt 0x00 [0x45, 0x07]) (fun t => (t.sp, t.mem.read 0xF3)) = some (0xF3, 0xF3) ∧
    afterStep (codeAt 0x00 [0x45, 0x08]) (fun t => (t.sp, t.pc, t.runState, t.faultRecord)) =
      some (0xF4, 0, faultedWith (.invalidRegister 8) 0) := by decide

/-- V55: the advance uses the latched opcode. -/
theorem test_push_onto_its_own_opcode :
    afterStep ((codeAtWith 0x10 [0x45, 0x00] 7 0x11).setReg 0 0x99) (fun t => (t.sp, t.mem.read 0x10, t.pc)) =
      some (0x10, 0x99, 0x12) := by decide

/-- V61: the stack pointer wraps to 00. -/
theorem test_pop_wraps :
    afterStep { codeAtWith 0x00 [0x46, 0x03] 7 0xFF with mem := [(0, 0x46), (1, 0x03), (0xFF, 0x9C)] }
      (fun t => (t.getReg 3, t.sp, t.mem.read 0xFF)) = some (0x9C, 0x00, 0x9C) := by decide

/-- V62: the popped byte, then incremented. -/
theorem test_pop_into_the_stack_pointer :
    afterStep { codeAtWith 0x00 [0x46, 0x07] 7 0xF3 with mem := [(0, 0x46), (1, 0x07), (0xF3, 0x40)] }
      (fun t => (t.sp, t.pc)) = some (0x41, 2) := by decide

/-- V71 -/
theorem test_halt_at_the_end_of_memory :
    afterStep (codeAt 0xFF [0x01]) (fun t => (t.runState, t.pc)) = some (.halted, 256) := by decide

/-- V72 -/
theorem test_no_step_after_halt : step (codeAt 0x00 [0x01]).halt = .fault .noCycleInHalted := rfl

/-- V1 -/
theorem test_fetch_outside_memory :
    afterStep (codeAt 256 []) (fun t => (t.pc, t.runState, t.faultRecord)) =
      some (256, faultedWith (.invalidAddress 256) 256) := by decide

/-- V5 -/
theorem test_unknown_opcode_strict :
    afterStep (codeAt 0x00 [0xA0, 0x00, 0x01]) (fun t => (t.pc, t.runState, t.faultRecord)) =
      some (0, faultedWith (.unknownOpcode 0xA0) 0) := by decide

/-- V4: an unknown opcode's bits [7:6] are ignored. -/
theorem test_unknown_opcode_legacy :
    afterStep { codeAt 0x00 [0xC5, 0x01, 0x02, 0x03] with policy := .legacySkip } (fun t => (t.pc, t.runState)) =
      some (1, .running) := by decide

/-- V30, V34, V37 -/
theorem test_alu : aluApply 0b00 0xC8 0x64 = .ok 0x2C ∧ aluApply 0b01 0x10 0x10 = .ok 0x00 ∧
    aluApply 0b10 1 1 = .error (.unsupportedALUOperation 0b10) := ⟨rfl, rfl, rfl⟩

/-! ### Witnesses -/

theorem witness_LaunchGivesTheResetValues : (List.replicate 256 (0x01 : Byte)).length ≤ 256 := by
  rw [List.length_replicate]

theorem witness_LongImageStartsNoRun : 256 < (List.replicate 257 (0x01 : Byte)).length := by
  rw [List.length_replicate]; decide

theorem witness_InstructionSequencesReadOneWay :
    [Instr.ldi 0 8, .halt].flatMap encode = [Instr.ldi 0 8, .halt].flatMap encode := rfl

theorem witness_OpcodeTableHasExactlySixEntries :
    (0x02 : Byte) ∉ ([0x01, 0x45, 0x46, 0x47, 0x82, 0xA2] : List Byte) := by decide

theorem witness_UnknownOpcodesAreRefusedByName :
    0xC0 ≤ (0xC0 : Byte).toNat ∧ 0xC0 ≤ (0xFF : Byte).toNat ∧ (lookupOpcode 0x00).isNone = true := by decide

theorem witness_RegisterOperandIsTheWholeByte :
    lookupOpcode 0x82 = some ⟨0x82, "LDI", .f2ri .ldi⟩ ∧ 8 ≤ (8 : Byte).toNat ∧ 8 ≤ (255 : Byte).toNat :=
  ⟨rfl, by decide, by decide⟩

theorem witness_AddressesOutsideMemoryRaise :
    (255 ≤ 255 ∧ 256 ≤ 256) ∧ (codeAt 256 []).runState = .running ∧ 256 ≤ (codeAt 256 []).pc := by decide

theorem witness_FetchedInstructionLiesAtPc : (codeAt 253 [0x82, 0x01, 0x07]).fetch = .ok (.ldi 1 7) := rfl

theorem witness_StepRunsTheDecodedInstruction : (codeAt 0 [0x45, 0x02, 0x01]).runState = .running ∧
    decode (codeAt 0 [0x45, 0x02, 0x01]).fetchWindow = .ok (.push 2, [0x01]) := ⟨rfl, rfl⟩

theorem witness_StepRunsTheEncodingInMemory : (codeAt 255 [0x01]).runState = .running ∧
    (codeAt 255 [0x01]).pc + (encode .halt).length ≤ 256 ∧
    ∀ (k : Nat) (h : k < (encode .halt).length), (codeAt 255 [0x01]).mem.read ((codeAt 255 [0x01]).pc + k) = (encode .halt)[k] := by
  refine ⟨rfl, by decide, fun k h => ?_⟩
  obtain rfl : k = 0 := Nat.lt_one_iff.mp h
  rfl

theorem witness_CycleFollowsThePseudocode : (codeAt 255 [0x45]).runState = .running := rfl

theorem witness_OnlyARunningCoreSteps : State.reset.runState = .running ∧ State.reset.halt.runState = .halted ∧
    (State.reset.raise (.invalidAddress 256)).runState = .faulted := ⟨rfl, rfl, rfl⟩

theorem witness_UnknownOpcodeFaultsWhenStrict : (codeAt 255 [0xA0]).runState = .running ∧ (codeAt 255 [0xA0]).pc < 256 ∧
    lookupOpcode ((codeAt 255 [0xA0]).mem.read (codeAt 255 [0xA0]).pc) = none ∧ (codeAt 255 [0xA0]).policy = .strictFault :=
  ⟨rfl, by decide, rfl, rfl⟩

theorem witness_UnknownOpcodeIsSkippedWhenLegacy :
    let s := { codeAt 255 [0xC5] with policy := .legacySkip }
    s.runState = .running ∧ s.pc < 256 ∧ lookupOpcode (s.mem.read s.pc) = none ∧ s.policy = .legacySkip :=
  ⟨rfl, by decide, rfl, rfl⟩

/-- Every branch at its boundary: no first operand, no second operand, R7, register 8. -/
theorem witness_LdiCycle : ∀ s ∈ [codeAt 255 [0x82], codeAt 254 [0x82, 0x09], codeAt 253 [0x82, 0x07, 0xFF], codeAt 0 [0x82, 0x08, 0x01]],
    s.runState = .running ∧ s.pc < 256 ∧ s.mem.read s.pc = 0x82 := by decide

theorem witness_PrnCycle : ∀ s ∈ [codeAt 255 [0x47], codeAt 254 [0x47, 0x07], codeAt 0 [0x47, 0x08]],
    s.runState = .running ∧ s.pc < 256 ∧ s.mem.read s.pc = 0x47 := by decide

theorem witness_MultCycle : ∀ s ∈ [codeAt 255 [0xA2], codeAt 254 [0xA2, 0x08], codeAt 253 [0xA2, 0x07, 0x07],
    codeAt 0 [0xA2, 0x07, 0x08], codeAt 0 [0xA2, 0x08, 0x09]],
    s.runState = .running ∧ s.pc < 256 ∧ s.mem.read s.pc = 0xA2 := by decide

theorem witness_PushCycle : ∀ s ∈ [codeAt 255 [0x45], codeAt 254 [0x45, 0x07], codeAt 0 [0x45, 0x08]],
    s.runState = .running ∧ s.pc < 256 ∧ s.mem.read s.pc = 0x45 := by decide

theorem witness_PopCycle : ∀ s ∈ [codeAt 255 [0x46], codeAt 254 [0x46, 0x07], codeAt 0 [0x46, 0x08]],
    s.runState = .running ∧ s.pc < 256 ∧ s.mem.read s.pc = 0x46 := by decide

theorem witness_HaltCycle : (codeAt 255 [0x01]).runState = .running ∧ (codeAt 255 [0x01]).pc < 256 ∧
    (codeAt 255 [0x01]).mem.read (codeAt 255 [0x01]).pc = 0x01 := by decide

/-- The register operands of every completion statement, at both ends of their range. -/
theorem witness_register_operands_that_complete : (0 : Byte).toNat < 8 ∧ (7 : Byte).toNat < 8 := by decide

/-- LdiCompletes at the ends of the operands' ranges. -/
theorem witness_LdiCompletes : (7 : Byte).toNat < 8 ∧ (nextOf (exec (.ldi 7 255) State.reset)).isSome = true := by decide

theorem witness_PrnCompletes : (7 : Byte).toNat < 8 ∧ (nextOf (exec (.prn 7) State.reset)).isSome = true := by decide

theorem witness_MultCompletes : (7 : Byte).toNat < 8 ∧ (0 : Byte).toNat < 8 ∧
    (nextOf (exec (.mult 7 0) State.reset)).isSome = true := by decide

theorem witness_PushCompletes : (7 : Byte).toNat < 8 ∧ (nextOf (exec (.push 7) State.reset)).isSome = true := by decide

theorem witness_PopCompletes : (7 : Byte).toNat < 8 ∧ (nextOf (exec (.pop 7) State.reset)).isSome = true := by decide

/-- 8 and 255, and for MULT each order of the two checks. -/
theorem witness_InvalidRegisterOperandsTrap :
    8 ≤ (8 : Byte).toNat ∧ 8 ≤ (255 : Byte).toNat ∧ ((7 : Byte).toNat < 8 ∧ 8 ≤ (8 : Byte).toNat) := by decide

theorem witness_CompletesExactlyWhenWellFormed : State.reset.runState ≠ .faulted ∧ Instr.wellFormed (.mult 7 7) = true ∧
    Instr.wellFormed (.mult 7 8) = false := by decide

theorem witness_LdiAndMultFrame : (∃ t, exec (.ldi 7 0xFF) (codeAt 0 []) = .next t) ∧
    (∃ t, exec (.mult 7 7) (codeAt 0 []) = .next t) ∧ (∃ t, exec (.ldi 8 0xFF) (codeAt 0 []) = .next t) ∧
    Instr.wellFormed (.ldi 7 0xFF) = true ∧ Instr.wellFormed (.mult 7 7) = true := ⟨⟨_, rfl⟩, ⟨_, rfl⟩, ⟨_, rfl⟩, rfl, rfl⟩

theorem witness_PrnAndHaltFrame : (∃ t, exec (.prn 7) (codeAt 0 []) = .next t) ∧ (∃ t, exec (.prn 8) (codeAt 0 []) = .next t) ∧
    (∃ t, exec .halt (codeAt 0 []) = .next t) := ⟨⟨_, rfl⟩, ⟨_, rfl⟩, ⟨_, rfl⟩⟩

theorem witness_PushFrame : (∃ t, exec (.push 7) (codeAtWith 0 [] 7 0x00) = .next t) ∧ (codeAtWith 0 [] 7 0x00).pushAddress = 255 ∧
    (∃ t, exec (.push 8) (codeAt 0 []) = .next t) := ⟨⟨_, rfl⟩, by decide, ⟨_, rfl⟩⟩

theorem witness_PopFrame : (∃ t, exec (.pop 7) (codeAtWith 0 [] 7 0xFF) = .next t) ∧
    (∃ t, exec (.pop 8) (codeAt 0 []) = .next t) := ⟨⟨_, rfl⟩, ⟨_, rfl⟩⟩

theorem witness_NoProgramRaisesUnsupportedAluOperation : ((0b10 : BitVec 2) ≠ aluAdd ∧ (0b10 : BitVec 2) ≠ aluMul) ∧
    afterStep (codeAt 0 [0xA2, 0x00, 0x08]) (fun t => t.runState) = some .faulted := by decide

theorem witness_KnownOpcodeAdvancesByItsTopBits :
    (∃ t, step (codeAt 253 [0x82, 0x07, 0xFF]) = .next t ∧ t.runState ≠ .faulted) ∧
    (codeAt 253 [0x82, 0x07, 0xFF]).fetch = .ok (.ldi 7 0xFF) := ⟨⟨_, rfl, by decide⟩, rfl⟩

/-- One completed cycle for each arm of the statement's table of advances. -/
theorem witness_KnownOpcodeAdvancesByItsTopBits_arms :
    afterStep (codeAt 255 [0x01]) (fun t => (t.runState, t.pc)) = some (.halted, 256) ∧
    ∀ s ∈ [codeAt 254 [0x45, 0x07], codeAt 254 [0x46, 0x07], codeAt 254 [0x47, 0x07], codeAt 253 [0xA2, 0x07, 0x07]],
      afterStep s (fun t => (t.runState, t.pc)) = some (.running, 256) := by decide

/-- A cycle that completes and ends at 256, and a cycle that raises. -/
theorem witness_PcNeverGoesBack : afterStep (codeAt 255 [0x01]) (fun t => (t.runState, t.pc)) = some (.halted, 256) ∧
    afterStep (codeAt 255 [0x82]) (fun t => (t.runState, t.pc)) = some (.faulted, 255) := by decide

theorem witness_EveryRunEnds : (codeAt 256 []).runState = .running ∧ (codeAt 256 []).pc ≤ 256 := by decide

/-- A step whose byte is printed, and one whose register does not exist. -/
theorem witness_OnlyPrnWritesTheOutput : afterStep (codeAt 0 [0x47, 0x07]) (fun t => t.output) = some [0xF4] ∧
    afterStep (codeAt 0 [0x47, 0x08]) (fun t => t.output) = some [] := by decide

theorem witness_OnlyPushWritesMemory :
    ∃ t, step (codeAt 0 [0x45, 0x07]) = .next t ∧ t.mem.read 0xF3 ≠ (codeAt 0 [0x45, 0x07]).mem.read 0xF3 :=
  ⟨_, rfl, by decide⟩

/-- One register changed by each of LDI, MULT, PUSH and POP. -/
theorem witness_RegistersChangeOnlyAsTheTableSays :
    afterStep (codeAt 0 [0x82, 0x00, 0x08]) (fun t => t.getReg 0) = some 0x08 ∧
    afterStep (codeAt 0 [0xA2, 0x01, 0x01]) (fun t => t.getReg 1) = some 0x84 ∧
    afterStep (codeAt 0 [0x45, 0x01]) (fun t => t.getReg 7) = some 0xF3 ∧
    afterStep (codeAt 0 [0x46, 0x06]) (fun t => (t.getReg 6, t.getReg 7)) = some (0x00, 0xF5) := by decide

theorem witness_OnlyHaltHalts : ∃ t, step (codeAt 255 [0x01]) = .next t := ⟨_, rfl⟩

/-- Each kind of error that a step can raise. -/
theorem witness_FaultsArePrecise : ∀ s ∈ [codeAt 256 [], codeAt 255 [0x45], codeAt 0 [0x45, 0x08], codeAt 0 [0x00]],
    afterStep s (fun t => t.runState) = some .faulted ∧ s.pc ≤ 256 := by decide

theorem witness_ConfigurationNeverChanges : ∃ t, step { codeAt 0 [0x00] with policy := .legacySkip } = .next t := ⟨_, rfl⟩

theorem witness_LaunchMeetsTheInvariant :
    (State.launch .legacySkip (Vector.replicate 7 0xFF) [0x01]).isSome = true := by decide

/-- A state that meets the invariant, with memory listed, and its step. -/
theorem witness_EveryStepKeepsTheInvariant : (codeAt 0 [0x45, 0x02]).Inv ∧ ∃ t, step (codeAt 0 [0x45, 0x02]) = .next t :=
  ⟨⟨by decide, by decide, by decide, fun r h => (nomatch h), fun h => (nomatch h)⟩, _, rfl⟩

/-- The same for a halted and for a faulted state. -/
theorem witness_invariant_at_the_end_of_a_run :
    { codeAt 0 [0x01] with pc := 1, runState := .halted }.Inv ∧ ((codeAt 256 []).raise (.invalidAddress 256)).Inv :=
  ⟨⟨by decide, by decide, by decide, fun r h => (nomatch h), fun _ => by decide⟩,
    ⟨by decide, by decide, by decide, fun r h => by cases h; exact ⟨rfl, rfl⟩, fun h => (nomatch h)⟩⟩

/-- R7 pushed and popped, other registers, and a stack pointer that wraps. -/
theorem witness_PushThenPopMovesAValue :
    (∃ t u, exec (.push (BitVec.ofNat 8 (2 : Fin 8).val)) (codeAtWith 0 [] 7 0x00) = .next t ∧
      exec (.pop (BitVec.ofNat 8 (3 : Fin 8).val)) t = .next u) ∧
    ∃ t u, exec (.push (BitVec.ofNat 8 (7 : Fin 8).val)) (codeAt 0 []) = .next t ∧
      exec (.pop (BitVec.ofNat 8 (7 : Fin 8).val)) t = .next u := ⟨⟨_, _, rfl, rfl⟩, _, _, rfl, rfl⟩

theorem witness_StackIsLastInFirstOut : (List.replicate 255 (0 : Fin 7)).length < 256 ∧ ([] : List (Fin 7)).length < 256 := by
  rw [List.length_replicate]; decide

/-- A pushed HALT that is the next opcode, and a pushed byte that is unknown. -/
theorem witness_PushedByteIsFetchedNext : ∀ v ∈ [(0x01 : Byte), 0xA0],
    let s := (codeAtWith 0x0E [0x45, 0x00] 7 0x11).setReg 0 v
    s.pushAddress = 0x10 ∧ afterStep s (fun t => (t.runState, t.pc, t.mem.read 0x10)) = some (.running, 0x10, v) := by decide

theorem witness_PushedByteIsFetchedNext_fetches_the_push :
    ((codeAtWith 0x0E [0x45, 0x00] 7 0x11).setReg 0 0x01).fetch = .ok (.push 0) := rfl

end Sys2Proof.Tests
end

section
/-! SUPPORT. The statements about the encoding (spec/30_encoding.md): the opcode table, register operands, and where
the bytes of a fetched instruction lie. -/

namespace Sys2Proof

/-! ### The opcode table and the decoder -/

/-- A byte is one of the six opcodes or has no row (R75). -/
theorem mem_opcodes_or_lookupOpcode_eq_none (op : Byte) :
    op ∈ [Opcode.halt, Opcode.push, Opcode.pop, Opcode.prn, Opcode.ldi, Opcode.mult] ∨ lookupOpcode op = none := by
  simpa [or_assoc] using lookupOpcode_cases op

theorem decode_of_lookupOpcode {op : Byte} {row : OpcodeRow} (h : lookupOpcode op = some row) (bytes : List Byte) :
    decode (op :: bytes) = row.layout.takeOperands bytes := by
  simp [decode, h]

/-- Two bytes are enough operands for every format, whatever they are (R73, R74). -/
theorem Layout.takeOperands_two_bytes (l : Layout) (b₁ b₂ : Byte) (rest : List Byte) :
    ∃ i left, l.takeOperands (b₁ :: b₂ :: rest) = .ok (i, left) := by
  cases l <;> exact ⟨_, _, rfl⟩

/-- The length of an instruction is `op[7:6] + 1` (R70). -/
theorem encode_length (i : Instr) : (encode i).length = operandCount i.opcode + 1 := by
  cases i with
  | halt => exact Laws.EncodedLength.halt.1
  | push ra => exact (Laws.EncodedLength.push ra).1
  | pop ra => exact (Laws.EncodedLength.pop ra).1
  | prn ra => exact (Laws.EncodedLength.prn ra).1
  | ldi ra imm => exact (Laws.EncodedLength.ldi ra imm).1
  | mult ra rb => exact (Laws.EncodedLength.mult ra rb).1

theorem operandCount_opcode_le (i : Instr) : operandCount i.opcode ≤ 2 := by
  cases i <;> simp [Instr.opcode]

namespace Machine

/-! ### Register operands (R22, R73) -/

theorem toNat_ofNat_register (r : Fin 8) : (BitVec.ofNat 8 r.val).toNat = r.val := by
  rw [BitVec.toNat_ofNat]; omega

theorem State.readOperand_register (s : State) (r : Fin 8) :
    s.readOperand (BitVec.ofNat 8 r.val) = .ok (s.getReg r) := by
  have h := toNat_ofNat_register r
  rw [s.readOperand_of_lt (h.trans_lt r.isLt)]
  simp only [h]

theorem State.writeOperand_register (s : State) (r : Fin 8) (v : Byte) :
    s.writeOperand (BitVec.ofNat 8 r.val) v = .ok (s.setReg r v) := by
  have h := toNat_ofNat_register r
  rw [s.writeOperand_of_lt v (h.trans_lt r.isLt)]
  simp only [h]

/-! ### Bytes that lie in memory -/

/-- `bytes` can be read at `a` and the addresses after it, all of them inside memory. -/
def State.BytesAt (s : State) : Nat → List Byte → Prop
  | _, [] => True
  | a, b :: bytes => s.memRead a = .ok b ∧ s.BytesAt (a + 1) bytes

theorem State.BytesAt.memRead {s : State} {a : Nat} {bytes : List Byte} (h : s.BytesAt a bytes) {k : Nat}
    (hk : k < bytes.length) : s.memRead (a + k) = .ok bytes[k] := by
  induction bytes generalizing a k with
  | nil => cases hk
  | cons b bytes ih =>
    obtain ⟨hb, hbytes⟩ := h
    cases k with
    | zero => exact hb
    | succ k =>
      have haddr : a + (k + 1) = a + 1 + k := by omega
      rw [haddr]
      exact ih hbytes (Nat.lt_of_succ_lt_succ hk)

/-! ### What a fetch that succeeds has read -/

theorem State.readOperandBytes_f1r_ok {s : State} {make : Byte → Instr} {i : Instr}
    (h : s.readOperandBytes (.f1r make) = .ok i) : ∃ ra, s.memRead (s.pc + 1) = .ok ra ∧ i = make ra := by
  obtain ⟨ra, hra, h⟩ := except_bind_ok h
  cases h
  exact ⟨ra, hra, rfl⟩

theorem State.readOperandBytes_f2rr_ok {s : State} {make : Byte → Byte → Instr} {i : Instr}
    (h : s.readOperandBytes (.f2rr make) = .ok i) :
    ∃ ra rb, s.memRead (s.pc + 1) = .ok ra ∧ s.memRead (s.pc + 2) = .ok rb ∧ i = make ra rb := by
  obtain ⟨ra, hra, h⟩ := except_bind_ok h
  obtain ⟨rb, hrb, h⟩ := except_bind_ok h
  cases h
  exact ⟨ra, rb, hra, hrb, rfl⟩

/-- The two formats with two operand bytes read them alike; they differ in what the second one means (R72). -/
theorem State.readOperandBytes_f2ri_ok {s : State} {make : Byte → Byte → Instr} {i : Instr}
    (h : s.readOperandBytes (.f2ri make) = .ok i) :
    ∃ ra imm, s.memRead (s.pc + 1) = .ok ra ∧ s.memRead (s.pc + 2) = .ok imm ∧ i = make ra imm :=
  State.readOperandBytes_f2rr_ok h

/-- A fetched instruction lies in memory at `pc` as its encoding (R70). -/
theorem State.fetch_bytesAt {s : State} {i : Instr} (h : s.fetch = .ok i) : s.BytesAt s.pc (encode i) := by
  rw [s.fetch_eq] at h
  obtain ⟨op, hop, h⟩ := except_bind_ok h
  rcases lookupOpcode_cases op with rfl | rfl | rfl | rfl | rfl | rfl | hl
  · cases h
    exact ⟨hop, trivial⟩
  · obtain ⟨ra, hra, rfl⟩ := State.readOperandBytes_f1r_ok h
    exact ⟨hop, hra, trivial⟩
  · obtain ⟨ra, hra, rfl⟩ := State.readOperandBytes_f1r_ok h
    exact ⟨hop, hra, trivial⟩
  · obtain ⟨ra, hra, rfl⟩ := State.readOperandBytes_f1r_ok h
    exact ⟨hop, hra, trivial⟩
  · obtain ⟨ra, imm, hra, himm, rfl⟩ := State.readOperandBytes_f2ri_ok h
    exact ⟨hop, hra, himm, trivial⟩
  · obtain ⟨ra, rb, hra, hrb, rfl⟩ := State.readOperandBytes_f2rr_ok h
    exact ⟨hop, hra, hrb, trivial⟩
  · simp [hl] at h

/-! ### The statements -/

/-- Settles O11: every byte of the encoding is read inside memory, the first of them is the opcode, which gives the
length, and the last of them bounds the end. -/
theorem fetchedInstructionLiesAtPc : Obligations.FetchedInstructionLiesAtPc := by
  intro s i h
  have hbytes {k : Nat} (hk : k < (encode i).length) : s.pc + k < 256 ∧ s.mem.read (s.pc + k) = (encode i)[k] :=
    State.memRead_ok ((State.fetch_bytesAt h).memRead hk)
  have hlen := encode_length i
  have hop : s.mem.read s.pc = i.opcode := (hbytes (k := 0) (by omega)).2
  have hlast := (hbytes (k := operandCount i.opcode) (by omega)).1
  have hcount := operandCount_opcode_le i
  exact ⟨by rw [hop, hlen], by omega, by omega, by omega, fun k hk => (hbytes hk).2⟩

/-- Settles O6: the table row by row, and no row for a byte that is not one of the six. -/
theorem opcodeTableHasExactlySixEntries : Obligations.OpcodeTableHasExactlySixEntries :=
  ⟨lookupOpcode_halt, operandCount_halt, lookupOpcode_push, operandCount_push, lookupOpcode_pop, operandCount_pop,
    lookupOpcode_prn, operandCount_prn, lookupOpcode_ldi, operandCount_ldi, lookupOpcode_mult, operandCount_mult,
    fun op hop => (mem_opcodes_or_lookupOpcode_eq_none op).resolve_left hop⟩

/-- Settles O8: decoding takes any operand bytes, and only the access checks the register's index. -/
theorem registerOperandIsTheWholeByte : Obligations.RegisterOperandIsTheWholeByte := by
  refine ⟨fun op b₁ b₂ row rest hrow => ?_, fun s i hi => ?_, fun s r => ?_⟩
  · rw [decode_of_lookupOpcode hrow]
    exact row.layout.takeOperands_two_bytes b₁ b₂ rest
  · exact ⟨s.readOperand_of_ge hi, fun v => s.writeOperand_of_ge v hi⟩
  · exact ⟨s.readOperand_register r, fun v =>
      ⟨s.setReg r v, s.writeOperand_register r v, fun q => s.getReg_setReg r q v⟩⟩

end Machine
end Sys2Proof
end

section
/-! SUPPORT. The statements about the cycle (spec/40_cycle.md): what the rule of an instruction does to `pc`, and where
the cycle's end leaves it. -/

namespace Sys2Proof
namespace Machine

/-! ### Accesses that complete -/

/-- A register write that completes named a register, and wrote that one alone (R22). -/
theorem State.writeOperand_ok {s t : State} {i v : Byte} (h : s.writeOperand i v = .ok t) :
    ∃ hi : i.toNat < 8, t = s.setReg ⟨i.toNat, hi⟩ v := by
  by_cases hi : i.toNat < 8
  · rw [s.writeOperand_of_lt v hi] at h
    cases h
    exact ⟨hi, rfl⟩
  · rw [s.writeOperand_of_ge v (Nat.not_lt.mp hi)] at h
    cases h

theorem State.writeOperand_pc {s t : State} {i v : Byte} (h : s.writeOperand i v = .ok t) : t.pc = s.pc := by
  obtain ⟨_, rfl⟩ := State.writeOperand_ok h
  rfl

/-! ### The fetched instruction -/

/-- The byte at `pc` is the opcode of the instruction that the fetch gives. -/
theorem State.fetch_opcode {s : State} {i : Instr} (h : s.fetch = .ok i) : s.mem.read s.pc = i.opcode :=
  (State.memRead_ok (State.fetch_bytesAt h).1).2

/-- A step that fetches an instruction runs it (R103). -/
theorem exec_of_step {s t : State} {i : Instr} (h : step s = .next t) (hi : s.fetch = .ok i) :
    exec i s = .next t := by
  have hc := (step_next h).2
  rwa [State.cycle, hi] at hc

/-! ### The rule and the advance (R104, R108) -/

/-- Every instruction is a rule that leaves `pc` alone, and then the end of the cycle with its own opcode latched. -/
theorem exec_eq_endCycle (i : Instr) (s : State) :
    ∃ r, exec i s = s.endCycle i.opcode r ∧ ∀ u, r = .ok u → u.pc = s.pc := by
  cases i with
  | halt =>
    refine ⟨.ok s.halt, rfl, fun u hu => ?_⟩
    cases hu
    rfl
  | push ra =>
    refine ⟨_, rfl, fun u hu => ?_⟩
    obtain ⟨v, _, hu⟩ := except_bind_ok hu
    rw [State.memWrite_byte] at hu
    cases hu
    rfl
  | pop ra =>
    refine ⟨_, rfl, fun u hu => ?_⟩
    obtain ⟨v, _, hu⟩ := except_bind_ok hu
    obtain ⟨s₁, hs₁, hu⟩ := except_bind_ok hu
    cases hu
    rw [State.setSp_pc, State.writeOperand_pc hs₁]
  | prn ra =>
    refine ⟨_, rfl, fun u hu => ?_⟩
    obtain ⟨v, _, hu⟩ := except_bind_ok hu
    cases hu
    rfl
  | ldi ra imm => exact ⟨_, rfl, fun u hu => State.writeOperand_pc hu⟩
  | mult ra rb =>
    refine ⟨_, rfl, fun u hu => ?_⟩
    obtain ⟨a, _, hu⟩ := except_bind_ok hu
    obtain ⟨b, _, hu⟩ := except_bind_ok hu
    obtain ⟨product, _, hu⟩ := except_bind_ok hu
    exact State.writeOperand_pc hu

/-- An instruction that raises nothing advances `pc` once, by its opcode. -/
theorem exec_pc {i : Instr} {s t : State} (h : exec i s = .next t) (ht : t.runState ≠ .faulted) :
    t.pc = s.pc + operandCount i.opcode + 1 := by
  obtain ⟨r, hexec, hpc⟩ := exec_eq_endCycle i s
  rw [hexec] at h
  cases r with
  | ok u =>
    cases h
    rw [State.advance_pc, hpc u rfl]
  | error e =>
    cases h
    exact absurd (s.raise_runState e) ht

/-! ### The statement -/

/-- Settles O39: the cycle ends with the advance by the fetched instruction's opcode, which is the byte at `pc`. -/
theorem knownOpcodeAdvancesByItsTopBits : Obligations.KnownOpcodeAdvancesByItsTopBits := by
  intro s t i hstep hfetch hfault
  have hpc := exec_pc (exec_of_step hstep hfetch) hfault
  refine ⟨by rw [State.fetch_opcode hfetch, hpc], ?_⟩
  rw [hpc]
  cases i <;> simp [Instr.opcode]

end Machine
end Sys2Proof
end

section
/-! SUPPORT. The statements about the ALU (spec/42_alu.md). The equations of `aluApply` name the result as a byte; its
value is the stated one because a reduction modulo 256 fits in 8 bits. -/

namespace Sys2Proof
namespace Machine

/-- A number reduced modulo 256 keeps its value as a byte, so the ALU's result loses nothing more. -/
theorem toNat_byte_ofNat_mod (n : Nat) : (BitVec.ofNat 8 (n % 256)).toNat = n % 256 := by
  rw [BitVec.toNat_ofNat]
  exact Nat.mod_mod n 256

/-! ### The statements -/

/-- Settles O36: the ADD equation of the ALU, read as a number (R131). -/
theorem aluAddsModulo256 : Obligations.AluAddsModulo256 := fun a b =>
  ⟨_, aluApply_add a b, toNat_byte_ofNat_mod (a.toNat + b.toNat)⟩

/-- Settles O37: the MUL equation of the ALU, read as a number; the high byte of the product is dropped (R132). -/
theorem aluMultipliesModulo256 : Obligations.AluMultipliesModulo256 := fun a b =>
  ⟨_, aluApply_mul a b, toNat_byte_ofNat_mod (a.toNat * b.toNat)⟩

end Machine
end Sys2Proof
end

section
/-! SUPPORT. The statement about HALT (spec/44_halt.md): the cycle runs the instruction it fetched, and HALT's is its
opcode byte alone. -/

namespace Sys2Proof
namespace Machine

/-- A running core runs the instruction that the fetch gives (R103). -/
theorem step_of_fetch {s : State} {i : Instr} (hrun : s.runState = .running) (hfetch : s.fetch = .ok i) :
    step s = exec i s := by
  rw [step_running hrun, State.cycle, hfetch]

theorem State.fetch_halt {s : State} (hpc : s.pc < 256) (hop : s.mem.read s.pc = Opcode.halt) : s.fetch = .ok .halt :=
  (s.fetch_of_opcode hpc).1 hop

/-- HALT reads no register and no memory, so its rule raises nothing in any state (R150). -/
theorem exec_halt (s : State) : exec .halt s = .next { s with runState := .halted, pc := s.pc + 1 } :=
  s.endCycle_ok s.halt Opcode.halt

/-! ### The statement -/

/-- Settles O23: the byte at `pc` is the whole instruction, so the fetch gives HALT at 255 too, and HALT's rule with
the advance by its opcode is the stated state. -/
theorem haltCycle : Obligations.HaltCycle := by
  intro s hrun hpc hop
  calc step s = exec .halt s := step_of_fetch hrun (State.fetch_halt hpc hop)
    _ = .next { s with runState := .halted, pc := s.pc + 1 } := exec_halt s

end Machine
end Sys2Proof
end

section
/-! SUPPORT. The statement about the errors (spec/60_exceptions.md): everything a step that ends in `FAULTED` can have
raised. -/

namespace Sys2Proof
namespace Machine

/-- The ALU implements no selector but the two of R134 (R133). -/
theorem aluApply_unsupported {sel : BitVec 2} (a b : Byte) (hadd : sel ≠ aluAdd) (hmul : sel ≠ aluMul) :
    aluApply sel a b = .error (.unsupportedALUOperation sel) := by
  rw [aluApply, if_neg hadd, if_neg hmul]

/-! ### What an instruction's cycle can raise (R162, R165) -/

/-- An instruction completes, in the run state it began in or in `HALTED`, or raises `InvalidRegister`. MULT does not
raise in the ALU, since it sends the selector of MUL. -/
theorem exec_cases (i : Instr) (s : State) :
    (∃ t, exec i s = .next t ∧ (t.runState = s.runState ∨ t.runState = .halted)) ∨
      ∃ b : Byte, 8 ≤ b.toNat ∧ exec i s = .next (s.raise (.invalidRegister b)) := by
  cases i with
  | halt => exact .inl ⟨_, exec_halt s, .inr rfl⟩
  | push ra =>
    rcases Nat.lt_or_ge ra.toNat 8 with hra | hra
    · exact .inl (by simp [exec, execPush, State.readOperand_of_lt _ hra])
    · exact .inr ⟨ra, hra, by simp [exec, execPush, State.readOperand_of_ge _ hra]⟩
  | pop ra =>
    rcases Nat.lt_or_ge ra.toNat 8 with hra | hra
    · exact .inl (by simp [exec, execPop, s.writeOperand_of_lt _ hra])
    · exact .inr ⟨ra, hra, by simp [exec, execPop, s.writeOperand_of_ge _ hra]⟩
  | prn ra =>
    rcases Nat.lt_or_ge ra.toNat 8 with hra | hra
    · exact .inl (by simp [exec, execPrn, s.readOperand_of_lt hra])
    · exact .inr ⟨ra, hra, by simp [exec, execPrn, s.readOperand_of_ge hra]⟩
  | ldi ra imm =>
    rcases Nat.lt_or_ge ra.toNat 8 with hra | hra
    · exact .inl (by simp [exec, execLdi, s.writeOperand_of_lt _ hra])
    · exact .inr ⟨ra, hra, by simp [exec, execLdi, s.writeOperand_of_ge _ hra]⟩
  | mult ra rb =>
    rcases Nat.lt_or_ge ra.toNat 8 with hra | hra
    · rcases Nat.lt_or_ge rb.toNat 8 with hrb | hrb
      · exact .inl (by simp [exec, execMult, s.readOperand_of_lt hra, s.readOperand_of_lt hrb, aluApply_mul,
          s.writeOperand_of_lt _ hra])
      · exact .inr ⟨rb, hrb, by simp [exec, execMult, s.readOperand_of_lt hra, s.readOperand_of_ge hrb]⟩
    · exact .inr ⟨ra, hra, by simp [exec, execMult, s.readOperand_of_ge hra]⟩

/-- An unknown opcode is an error under `StrictFault` and skipped under `LegacySkip` (R105, R106). -/
theorem State.unknownOpcode_cases (s : State) (op : Byte) :
    (s.policy = .strictFault ∧ s.unknownOpcode op = .next (s.raise (.unknownOpcode op))) ∨
      (s.policy = .legacySkip ∧ s.unknownOpcode op = .next { s with pc := s.pc + 1 }) := by
  cases hp : s.policy with
  | strictFault => exact .inl ⟨rfl, by rw [State.unknownOpcode, hp]⟩
  | legacySkip => exact .inr ⟨rfl, by rw [State.unknownOpcode, hp]⟩

/-- Everything a step that ends in `FAULTED` can have raised, each error in the state the cycle began in (R161 to
R164, R170). -/
theorem step_faulted_cases {s t : State} (h : step s = .next t) (ht : t.runState = .faulted) :
    (∃ a, t = s.raise (.invalidAddress a) ∧ (s.pc ≤ 256 → a = 256)) ∨
      (∃ b : Byte, t = s.raise (.invalidRegister b) ∧ 8 ≤ b.toNat) ∨
      ∃ op, t = s.raise (.unknownOpcode op) ∧ s.policy = .strictFault ∧ s.pc < 256 ∧ s.mem.read s.pc = op ∧
        lookupOpcode op = none := by
  obtain ⟨hrun, ⟨i, _, hi⟩ | ⟨a, _, ha, rfl⟩ | ⟨op, _, hpc, hop, hl, hu⟩⟩ := step_cases h
  · rcases exec_cases i s with ⟨u, hu, hrs⟩ | ⟨b, hb, hraise⟩
    · cases hu.symm.trans hi
      simp [hrun, ht] at hrs
    · cases hraise.symm.trans hi
      exact .inr (.inl ⟨b, rfl, hb⟩)
  · exact .inl ⟨a, rfl, ha⟩
  · rcases s.unknownOpcode_cases op with ⟨hp, hraise⟩ | ⟨_, hskip⟩
    · cases hraise.symm.trans hu
      exact .inr (.inr ⟨op, rfl, hp, hpc, hop, hl⟩)
    · cases hskip.symm.trans hu
      simp [hrun] at ht

/-! ### The statement -/

/-- Settles O38: none of the three errors that a step can raise is the ALU's. -/
theorem noProgramRaisesUnsupportedAluOperation : Obligations.NoProgramRaisesUnsupportedAluOperation := by
  refine ⟨fun sel a b => aluApply_unsupported a b, fun s t hstep hfault => ?_⟩
  obtain ⟨_, rfl, _⟩ | ⟨_, rfl, _⟩ | ⟨_, rfl, _⟩ := step_faulted_cases hstep hfault <;>
    exact ⟨_, s.raise_faultRecord _, fun _ h => nomatch h⟩

end Machine
end Sys2Proof
end

section
/-! SUPPORT. The statements about decoding (spec/30_encoding.md sections 1 to 4): decoding is the inverse of encoding,
and what has no encoding is refused by name. -/

namespace Sys2Proof

/-! ### Decoding inverts encoding (R70, R72) -/

/-- The decoder reads an instruction from the front of its encoding, whatever follows. -/
theorem decode_encode_append (i : Instr) (rest : List Byte) : decode (encode i ++ rest) = .ok (i, rest) := by
  cases i <;> rfl

theorem Layout.takeOperands_f1r_ok {make : Byte → Instr} {bytes rest : List Byte} {i : Instr}
    (h : (Layout.f1r make).takeOperands bytes = .ok (i, rest)) : ∃ ra, bytes = ra :: rest ∧ i = make ra := by
  match bytes with
  | [] => cases h
  | ra :: _ => cases h; exact ⟨ra, rfl, rfl⟩

theorem Layout.takeOperands_f2rr_ok {make : Byte → Byte → Instr} {bytes rest : List Byte} {i : Instr}
    (h : (Layout.f2rr make).takeOperands bytes = .ok (i, rest)) :
    ∃ ra rb, bytes = ra :: rb :: rest ∧ i = make ra rb := by
  match bytes with
  | [] => cases h
  | [_] => cases h
  | ra :: rb :: _ => cases h; exact ⟨ra, rb, rfl, rfl⟩

theorem Layout.takeOperands_f2ri_ok {make : Byte → Byte → Instr} {bytes rest : List Byte} {i : Instr}
    (h : (Layout.f2ri make).takeOperands bytes = .ok (i, rest)) :
    ∃ ra imm, bytes = ra :: imm :: rest ∧ i = make ra imm := by
  match bytes with
  | [] => cases h
  | [_] => cases h
  | ra :: imm :: _ => cases h; exact ⟨ra, imm, rfl, rfl⟩

/-- Bytes that decode are the encoding of the instruction read, followed by the bytes left over. -/
theorem eq_encode_append_of_decode {bytes rest : List Byte} {i : Instr} (h : decode bytes = .ok (i, rest)) :
    bytes = encode i ++ rest := by
  match bytes with
  | [] => cases h
  | op :: bytes =>
    rcases lookupOpcode_cases op with rfl | rfl | rfl | rfl | rfl | rfl | hl
    · cases h
      rfl
    · obtain ⟨ra, rfl, rfl⟩ := Layout.takeOperands_f1r_ok h
      rfl
    · obtain ⟨ra, rfl, rfl⟩ := Layout.takeOperands_f1r_ok h
      rfl
    · obtain ⟨ra, rfl, rfl⟩ := Layout.takeOperands_f1r_ok h
      rfl
    · obtain ⟨ra, imm, rfl, rfl⟩ := Layout.takeOperands_f2ri_ok h
      rfl
    · obtain ⟨ra, rb, rfl, rfl⟩ := Layout.takeOperands_f2rr_ok h
      rfl
    · simp [decode, hl] at h

/-- An encoding tells where it ends: no encoding is a proper beginning of another. -/
theorem encode_append_inj {i j : Instr} {left right : List Byte} (h : encode i ++ left = encode j ++ right) :
    i = j ∧ left = right := by
  have hj := decode_encode_append j right
  rw [← h, decode_encode_append] at hj
  cases hj
  exact ⟨rfl, rfl⟩

/-! ### Unknown opcodes (R77, R78) -/

theorem decode_of_lookupOpcode_eq_none {op : Byte} (h : lookupOpcode op = none) (rest : List Byte) :
    decode (op :: rest) = .error (.unknownOpcode op) := by
  simp [decode, h]

/-- A byte without a row is not one that has a row. -/
theorem ne_of_lookupOpcode_eq_none {op known : Byte} {row : OpcodeRow} (h : lookupOpcode op = none)
    (hknown : lookupOpcode known = some row) : op ≠ known := by
  rintro rfl
  cases h.symm.trans hknown

/-- No opcode of the table has bits [7:6] = 11. -/
theorem lookupOpcode_eq_none_of_top_bits {op : Byte} (h : 0xC0 ≤ op.toNat) : lookupOpcode op = none := by
  rcases lookupOpcode_cases op with rfl | rfl | rfl | rfl | rfl | rfl | hl
  case inr.inr.inr.inr.inr.inr => exact hl
  all_goals exact absurd h (by decide)

/-- The byte values that have a row. -/
def knownOpcodeValues : List Nat :=
  [Opcode.halt, Opcode.push, Opcode.pop, Opcode.prn, Opcode.ldi, Opcode.mult].map BitVec.toNat

theorem lookupOpcode_isNone_eq_false_iff (op : Byte) :
    (lookupOpcode op).isNone = false ↔ op.toNat ∈ knownOpcodeValues := by
  rcases mem_opcodes_or_lookupOpcode_eq_none op with hop | hl
  · refine iff_of_true ?_ (List.mem_map_of_mem hop)
    simp only [List.mem_cons, List.not_mem_nil, or_false] at hop
    rcases hop with rfl | rfl | rfl | rfl | rfl | rfl <;> rfl
  · have hop : op.toNat ∉ knownOpcodeValues := by
      intro hmem
      obtain ⟨known, hknown, heq⟩ := List.mem_map.mp hmem
      obtain rfl := BitVec.eq_of_toNat_eq heq
      simp only [List.mem_cons, List.not_mem_nil, or_false] at hknown
      rcases hknown with rfl | rfl | rfl | rfl | rfl | rfl <;> cases hl
    simp [hl, hop]

/-- The byte values with a row, listed among all 256, are the six. -/
theorem filter_known_perm :
    ((List.range 256).filter fun n => !(lookupOpcode (BitVec.ofNat 8 n)).isNone).Perm knownOpcodeValues := by
  refine (List.perm_ext_iff_of_nodup (List.nodup_range.filter _) (by decide)).mpr fun n => ?_
  simp only [List.mem_filter, List.mem_range, Bool.not_eq_true', lookupOpcode_isNone_eq_false_iff, BitVec.toNat_ofNat]
  constructor
  · rintro ⟨hn, hmem⟩
    rwa [Nat.mod_eq_of_lt hn] at hmem
  · intro hmem
    have hn : n < 256 := (by decide : ∀ n ∈ knownOpcodeValues, n < 256) n hmem
    exact ⟨hn, by rwa [Nat.mod_eq_of_lt hn]⟩

theorem length_filter_unknown :
    ((List.range 256).filter fun n => (lookupOpcode (BitVec.ofNat 8 n)).isNone).length = 250 := by
  have hsplit := List.length_eq_length_filter_add (l := List.range 256)
    fun n => (lookupOpcode (BitVec.ofNat 8 n)).isNone
  rw [filter_known_perm.length_eq, List.length_range] at hsplit
  have hsix : knownOpcodeValues.length = 6 := rfl
  omega

/-! ### The statements -/

/-- Settles O4: the decoder reads an encoding back, and whatever it reads was one. -/
theorem decodeAndEncodeAgree : Obligations.DecodeAndEncodeAgree := fun _ i rest =>
  ⟨eq_encode_append_of_decode, fun h => h ▸ decode_encode_append i rest⟩

/-- Settles O5, by induction on the first list: the first encoding of each list is cut off at the same place. -/
theorem instructionSequencesReadOneWay : Obligations.InstructionSequencesReadOneWay := by
  intro is
  induction is with
  | nil =>
    intro js h
    cases js with
    | nil => rfl
    | cons j js => cases h
  | cons i is ih =>
    intro js h
    cases js with
    | nil => cases h
    | cons j js =>
      obtain ⟨rfl, htail⟩ := encode_append_inj h
      rw [ih js htail]

/-- Settles O7: all bytes but the six of the table are unknown, and the decoder names the byte that has no row. -/
theorem unknownOpcodesAreRefusedByName : Obligations.UnknownOpcodesAreRefusedByName :=
  ⟨length_filter_unknown, rfl, rfl, fun _ => lookupOpcode_eq_none_of_top_bits,
    fun _ rest h => decode_of_lookupOpcode_eq_none h rest⟩

/-- Settles O9: six words are encodings, and in the last two the table's format asks for a byte that is not there. -/
theorem wordsOfTheManualDecode : Obligations.WordsOfTheManualDecode :=
  ⟨decode_encode_append (.ldi 0 8) [], decode_encode_append (.mult 0 1) [], decode_encode_append (.prn 0) [],
    decode_encode_append (.push 2) [], decode_encode_append (.pop 3) [], decode_encode_append .halt [],
    decode_of_lookupOpcode lookupOpcode_ldi [0x09], decode_of_lookupOpcode lookupOpcode_push []⟩

end Sys2Proof
end

section
/-! SUPPORT. What each instruction does (spec/41_register_io.md to 44_halt.md): one equation for each instruction whose
register operands exist and one for each that raises, and from them everything `exec` can answer. -/

namespace Sys2Proof
namespace Machine

/-! ### The effect of the two stack instructions before the advance -/

/-- PUSH of a register: the decrement, then the store of the register as it stands after it (R140). -/
def State.pushed (s : State) (r : Fin 8) : State :=
  let s₁ := s.setSp (spDecremented s.sp)
  { s₁ with mem := s.mem.write (spDecremented s.sp).toNat (s₁.getReg r) }

/-- POP into a register: the load, then the increment of the stack pointer as it stands after it (R141). -/
def State.popped (s : State) (r : Fin 8) : State :=
  let s₁ := s.setReg r (s.mem.read s.sp.toNat)
  s₁.setSp (spIncremented s₁.sp)

@[simp] theorem State.pushed_pc (s : State) (r : Fin 8) : (s.pushed r).pc = s.pc := rfl
@[simp] theorem State.pushed_runState (s : State) (r : Fin 8) : (s.pushed r).runState = s.runState := rfl
@[simp] theorem State.pushed_faultRecord (s : State) (r : Fin 8) : (s.pushed r).faultRecord = s.faultRecord := rfl
@[simp] theorem State.pushed_output (s : State) (r : Fin 8) : (s.pushed r).output = s.output := rfl
@[simp] theorem State.pushed_policy (s : State) (r : Fin 8) : (s.pushed r).policy = s.policy := rfl
theorem State.pushed_mem (s : State) (r : Fin 8) : (s.pushed r).mem =
    s.mem.write (spDecremented s.sp).toNat ((s.setSp (spDecremented s.sp)).getReg r) := rfl

@[simp] theorem State.popped_pc (s : State) (r : Fin 8) : (s.popped r).pc = s.pc := rfl
@[simp] theorem State.popped_mem (s : State) (r : Fin 8) : (s.popped r).mem = s.mem := rfl
@[simp] theorem State.popped_runState (s : State) (r : Fin 8) : (s.popped r).runState = s.runState := rfl
@[simp] theorem State.popped_faultRecord (s : State) (r : Fin 8) : (s.popped r).faultRecord = s.faultRecord := rfl
@[simp] theorem State.popped_output (s : State) (r : Fin 8) : (s.popped r).output = s.output := rfl
@[simp] theorem State.popped_policy (s : State) (r : Fin 8) : (s.popped r).policy = s.policy := rfl

theorem State.getReg_pushed (s : State) (r q : Fin 8) :
    (s.pushed r).getReg q = if q = 7 then spDecremented s.sp else s.getReg q :=
  s.getReg_setSp q _

@[simp] theorem State.sp_pushed (s : State) (r : Fin 8) : (s.pushed r).sp = spDecremented s.sp :=
  s.getReg_pushed r 7

theorem State.getReg_popped_of_ne (s : State) (r : Fin 8) {q : Fin 8} (h : q ≠ 7) :
    (s.popped r).getReg q = if q = r then s.mem.read s.sp.toNat else s.getReg q := by
  rw [State.popped, State.getReg_setSp, if_neg h, State.getReg_setReg]

@[simp] theorem State.sp_popped (s : State) (r : Fin 8) :
    (s.popped r).sp = spIncremented (if r = 7 then s.mem.read s.sp.toNat else s.sp) := by
  rw [State.popped, State.sp_setSp, State.sp_eq, State.getReg_setReg, State.sp_eq]
  simp only [eq_comm]

/-- The address that PUSH computes is the decremented stack pointer. -/
theorem State.pushAddress_eq (s : State) : s.pushAddress = (spDecremented s.sp).toNat := by
  rw [State.pushAddress, State.sp_setSp]

/-! ### Instructions whose register operands exist -/

theorem exec_ldi {ra : Byte} (imm : Byte) (s : State) (h : ra.toNat < 8) :
    exec (.ldi ra imm) s = .next ((s.setReg ⟨ra.toNat, h⟩ imm).advance Opcode.ldi) := by
  simp [exec, execLdi, immediate, s.writeOperand_of_lt imm h]

theorem exec_prn {ra : Byte} (s : State) (h : ra.toNat < 8) :
    exec (.prn ra) s = .next ((s.emit (s.getReg ⟨ra.toNat, h⟩)).advance Opcode.prn) := by
  simp [exec, execPrn, s.readOperand_of_lt h]

theorem exec_mult {ra rb : Byte} (s : State) (ha : ra.toNat < 8) (hb : rb.toNat < 8) :
    exec (.mult ra rb) s = .next ((s.setReg ⟨ra.toNat, ha⟩ (BitVec.ofNat 8
      (((s.getReg ⟨ra.toNat, ha⟩).toNat * (s.getReg ⟨rb.toNat, hb⟩).toNat) % 256))).advance Opcode.mult) := by
  simp [exec, execMult, s.readOperand_of_lt ha, s.readOperand_of_lt hb, aluApply_mul, s.writeOperand_of_lt _ ha]

theorem exec_push {ra : Byte} (s : State) (h : ra.toNat < 8) :
    exec (.push ra) s = .next ((s.pushed ⟨ra.toNat, h⟩).advance Opcode.push) := by
  simp [exec, execPush, State.pushed, State.readOperand_of_lt _ h]

theorem exec_pop {ra : Byte} (s : State) (h : ra.toNat < 8) :
    exec (.pop ra) s = .next ((s.popped ⟨ra.toNat, h⟩).advance Opcode.pop) := by
  simp [exec, execPop, State.popped, s.writeOperand_of_lt _ h]

/-! ### Instructions that name a register that does not exist (R162, R165) -/

theorem exec_ldi_invalid {ra : Byte} (imm : Byte) (s : State) (h : 8 ≤ ra.toNat) :
    exec (.ldi ra imm) s = .next (s.raise (.invalidRegister ra)) := by
  simp [exec, execLdi, s.writeOperand_of_ge _ h]

theorem exec_prn_invalid {ra : Byte} (s : State) (h : 8 ≤ ra.toNat) :
    exec (.prn ra) s = .next (s.raise (.invalidRegister ra)) := by
  simp [exec, execPrn, s.readOperand_of_ge h]

theorem exec_mult_invalid_left {ra : Byte} (rb : Byte) (s : State) (h : 8 ≤ ra.toNat) :
    exec (.mult ra rb) s = .next (s.raise (.invalidRegister ra)) := by
  simp [exec, execMult, s.readOperand_of_ge h]

theorem exec_mult_invalid_right {ra rb : Byte} (s : State) (ha : ra.toNat < 8) (hb : 8 ≤ rb.toNat) :
    exec (.mult ra rb) s = .next (s.raise (.invalidRegister rb)) := by
  simp [exec, execMult, s.readOperand_of_lt ha, s.readOperand_of_ge hb]

/-- The decrement comes before the register is read, and the raise discards it (R110, R140). -/
theorem exec_push_invalid {ra : Byte} (s : State) (h : 8 ≤ ra.toNat) :
    exec (.push ra) s = .next (s.raise (.invalidRegister ra)) := by
  simp [exec, execPush, State.readOperand_of_ge _ h]

theorem exec_pop_invalid {ra : Byte} (s : State) (h : 8 ≤ ra.toNat) :
    exec (.pop ra) s = .next (s.raise (.invalidRegister ra)) := by
  simp [exec, execPop, s.writeOperand_of_ge _ h]

/-! ### Everything `exec` can answer -/

/-- The states that an instruction run in `s` can answer: its effect with `pc` advanced, or an invalid register
raised. MULT's product is left open here; `exec_mult` gives it. -/
inductive ExecAnswers (s : State) : Instr → State → Prop
  | halt : ExecAnswers s .halt (s.halt.advance Opcode.halt)
  | push {ra : Byte} (h : ra.toNat < 8) : ExecAnswers s (.push ra) ((s.pushed ⟨ra.toNat, h⟩).advance Opcode.push)
  | pop {ra : Byte} (h : ra.toNat < 8) : ExecAnswers s (.pop ra) ((s.popped ⟨ra.toNat, h⟩).advance Opcode.pop)
  | prn {ra : Byte} (h : ra.toNat < 8) :
      ExecAnswers s (.prn ra) ((s.emit (s.getReg ⟨ra.toNat, h⟩)).advance Opcode.prn)
  | ldi {ra : Byte} (imm : Byte) (h : ra.toNat < 8) :
      ExecAnswers s (.ldi ra imm) ((s.setReg ⟨ra.toNat, h⟩ imm).advance Opcode.ldi)
  | mult {ra rb : Byte} (product : Byte) (ha : ra.toNat < 8) (hb : rb.toNat < 8) :
      ExecAnswers s (.mult ra rb) ((s.setReg ⟨ra.toNat, ha⟩ product).advance Opcode.mult)
  | raise {i : Instr} {b : Byte} (hi : i.wellFormed = false) (hb : 8 ≤ b.toNat) :
      ExecAnswers s i (s.raise (.invalidRegister b))

theorem namesRegister_of_ge {r : Byte} (h : 8 ≤ r.toNat) : namesRegister r = false :=
  decide_eq_false (Nat.not_lt.mpr h)

theorem namesRegister_iff {r : Byte} : namesRegister r = true ↔ r.toNat < 8 := decide_eq_true_iff

/-- Every instruction answers a next state, in every state. -/
theorem exec_answers (i : Instr) (s : State) : ∃ t, exec i s = .next t ∧ ExecAnswers s i t := by
  cases i with
  | halt => exact ⟨_, exec_halt s, .halt⟩
  | push ra =>
    rcases Nat.lt_or_ge ra.toNat 8 with h | h
    · exact ⟨_, exec_push s h, .push h⟩
    · exact ⟨_, exec_push_invalid s h, .raise (namesRegister_of_ge h) h⟩
  | pop ra =>
    rcases Nat.lt_or_ge ra.toNat 8 with h | h
    · exact ⟨_, exec_pop s h, .pop h⟩
    · exact ⟨_, exec_pop_invalid s h, .raise (namesRegister_of_ge h) h⟩
  | prn ra =>
    rcases Nat.lt_or_ge ra.toNat 8 with h | h
    · exact ⟨_, exec_prn s h, .prn h⟩
    · exact ⟨_, exec_prn_invalid s h, .raise (namesRegister_of_ge h) h⟩
  | ldi ra imm =>
    rcases Nat.lt_or_ge ra.toNat 8 with h | h
    · exact ⟨_, exec_ldi imm s h, .ldi imm h⟩
    · exact ⟨_, exec_ldi_invalid imm s h, .raise (namesRegister_of_ge h) h⟩
  | mult ra rb =>
    rcases Nat.lt_or_ge ra.toNat 8 with ha | ha
    · rcases Nat.lt_or_ge rb.toNat 8 with hb | hb
      · exact ⟨_, exec_mult s ha hb, .mult _ ha hb⟩
      · exact ⟨_, exec_mult_invalid_right s ha hb,
          .raise (Bool.and_eq_false_iff.mpr (.inr (namesRegister_of_ge hb))) hb⟩
    · exact ⟨_, exec_mult_invalid_left rb s ha,
        .raise (Bool.and_eq_false_iff.mpr (.inl (namesRegister_of_ge ha))) ha⟩

theorem ExecAnswers.of_exec {i : Instr} {s t : State} (h : exec i s = .next t) : ExecAnswers s i t := by
  obtain ⟨u, hu, hanswers⟩ := exec_answers i s
  cases hu.symm.trans h
  exact hanswers

/-! ### Bytes as the statements write them -/

/-- A register operand is R7 exactly when its byte is 7. -/
theorem register_eq_seven_iff {ra : Byte} (h : ra.toNat < 8) : (⟨ra.toNat, h⟩ : Fin 8) = 7 ↔ ra = 7 := by
  rw [← BitVec.toNat_inj, Fin.ext_iff]
  rfl

theorem spDecremented_eq (v : Byte) : spDecremented v = BitVec.ofNat 8 ((v.toNat + 255) % 256) := by
  apply BitVec.eq_of_toNat_eq
  rw [toNat_byte_ofNat_mod, spDecremented, BitVec.toNat_add]
  rfl

theorem spIncremented_eq (v : Byte) : spIncremented v = BitVec.ofNat 8 ((v.toNat + 1) % 256) := by
  apply BitVec.eq_of_toNat_eq
  rw [toNat_byte_ofNat_mod, spIncremented, BitVec.toNat_add]
  rfl

/-! ### The statements -/

/-- Settles O24: the register exists, so the write completes and the cycle ends with the advance. -/
theorem ldiCompletes : Obligations.LdiCompletes := fun _ imm s h => exec_ldi imm s h

/-- Settles O25: the register exists, so its byte is emitted. -/
theorem prnCompletes : Obligations.PrnCompletes := fun _ s h => exec_prn s h

/-- Settles O26: both registers exist, and the ALU implements MUL. -/
theorem multCompletes : Obligations.MultCompletes := fun _ _ s ha hb => exec_mult s ha hb

/-- Settles O27: the store is at the decremented stack pointer, and R7 is the only register that it changes before the
read. -/
theorem pushCompletes : Obligations.PushCompletes := by
  intro ra s h sp v
  have hsp : spDecremented s.sp = sp := spDecremented_eq s.sp
  refine ⟨_, exec_push s h, ?_, ?_, fun a ha => ?_, rfl, rfl, rfl, rfl, rfl⟩
  · rw [← hsp]
    rfl
  · rw [State.advance_mem, State.pushed_mem, hsp, Memory.read_write_self, State.getReg_setSp]
    simp only [register_eq_seven_iff h]
    rfl
  · rw [State.advance_mem, State.pushed_mem, hsp, Memory.read_write_ne _ _ ha]

/-- Settles O28: the increment reads R7 after the popped byte is written, which is that byte when R7 is popped. -/
theorem popCompletes : Obligations.PopCompletes := by
  intro ra s h v
  have hsp : (s.setReg ⟨ra.toNat, h⟩ v).sp = if ra = 7 then v else s.regs[7] := by
    rw [State.sp_eq, State.getReg_setReg]
    simp only [eq_comm (a := (7 : Fin 8)), register_eq_seven_iff h]
    rfl
  rw [exec_pop s h, ← hsp, ← spIncremented_eq]
  rfl

/-- Settles O29: HALT has no operand and reads nothing. -/
theorem haltCompletes : Obligations.HaltCompletes := exec_halt

/-- Settles O30: the access of the operand raises, and MULT accesses its first operand first. -/
theorem invalidRegisterOperandsTrap : Obligations.InvalidRegisterOperandsTrap :=
  ⟨fun _ imm s h => ⟨exec_ldi_invalid imm s h, exec_prn_invalid s h, exec_push_invalid s h, exec_pop_invalid s h⟩,
    fun _ rb s => ⟨exec_mult_invalid_left rb s, exec_mult_invalid_right s⟩⟩

/-- Settles O31: of the answers only the raise is faulted, and it is the one of an instruction that is not
well-formed. -/
theorem completesExactlyWhenWellFormed : Obligations.CompletesExactlyWhenWellFormed := by
  intro i s hs
  obtain ⟨t, hexec, hanswers⟩ := exec_answers i s
  refine ⟨t, hexec, ?_⟩
  cases hanswers with
  | halt => exact iff_of_false nofun nofun
  | push h | pop h | prn h | ldi _ h => exact iff_of_false hs (by simp [Instr.wellFormed, namesRegister_iff.mpr h])
  | mult product ha hb =>
    exact iff_of_false hs (by simp [Instr.wellFormed, namesRegister_iff.mpr ha, namesRegister_iff.mpr hb])
  | raise hi hb => exact iff_of_true rfl hi

end Machine
end Sys2Proof
end

section
/-! SUPPORT. The statements about the fetch and the cycle (spec/40_cycle.md): which instruction a step runs, the cycle
of the pseudocode, and the cycle of each instruction with its errors in order. -/

namespace Sys2Proof
namespace Machine

/-! ### The bytes of the fetch (R55, R101) -/

/-- Bytes that lie in memory, read by pairs of address and value. -/
theorem State.bytesAt_of_reads {s : State} {a : Nat} {bytes : List Byte} (hle : a + bytes.length ≤ 256)
    (h : ∀ (k : Nat) (hk : k < bytes.length), s.mem.read (a + k) = bytes[k]) : s.BytesAt a bytes := by
  induction bytes generalizing a with
  | nil => trivial
  | cons b bytes ih =>
    rw [List.length_cons] at hle
    refine ⟨?_, ih (by omega) fun k hk => ?_⟩
    · rw [s.memRead_of_lt (by omega)]
      exact congrArg Except.ok (h 0 (by simp))
    · rw [Nat.add_assoc, Nat.add_comm 1 k]
      exact h (k + 1) (Nat.succ_lt_succ hk)

/-- A window that is long enough begins with the bytes that lie there. -/
theorem State.bytesFrom_of_bytesAt {s : State} {a n : Nat} {bytes : List Byte} (h : s.BytesAt a bytes)
    (hn : bytes.length ≤ n) : ∃ rest, s.bytesFrom n a = bytes ++ rest := by
  induction bytes generalizing a n with
  | nil => exact ⟨_, rfl⟩
  | cons b bytes ih =>
    obtain ⟨hb, hbytes⟩ := h
    cases n with
    | zero => cases hn
    | succ n =>
      obtain ⟨rest, hrest⟩ := ih hbytes (Nat.le_of_succ_le_succ hn)
      exact ⟨rest, by simp [State.bytesFrom, hb, hrest]⟩

theorem State.fetch_of_decode {s : State} {i : Instr} {rest : List Byte} (h : decode s.fetchWindow = .ok (i, rest)) :
    s.fetch = .ok i := by
  rw [State.fetch, h]

theorem encode_length_le (i : Instr) : (encode i).length ≤ maxLength := by
  rw [encode_length]
  exact Nat.succ_le_succ (operandCount_opcode_le i)

/-- An instruction whose encoding lies at `pc` is the one fetched. -/
theorem State.fetch_of_bytesAt {s : State} {i : Instr} (h : s.BytesAt s.pc (encode i)) : s.fetch = .ok i := by
  obtain ⟨rest, hrest⟩ := State.bytesFrom_of_bytesAt h (encode_length_le i)
  refine State.fetch_of_decode (rest := rest) ?_
  rw [State.fetchWindow, hrest, decode_encode_append]

theorem State.fetch_of_ge {s : State} (h : 256 ≤ s.pc) : s.fetch = .error (.invalidAddress s.pc) := by
  rw [s.fetch_eq, s.memRead_of_ge h, except_error_bind]

theorem State.fetch_unknown {s : State} (hpc : s.pc < 256) (hop : lookupOpcode (s.mem.read s.pc) = none) :
    s.fetch = .error (.unknownOpcode (s.mem.read s.pc)) := by
  obtain ⟨_, _, _, _, _, _, hunknown⟩ := s.fetch_of_opcode hpc
  exact hunknown hop

/-! ### The step without an instruction (R101, R102) -/

theorem State.cycle_invalidAddress {s : State} {a : Nat} (h : s.fetch = .error (.invalidAddress a)) :
    s.cycle = .next (s.raise (.invalidAddress a)) := by
  rw [State.cycle, h]

theorem State.cycle_unknownOpcode {s : State} {op : Byte} (h : s.fetch = .error (.unknownOpcode op)) :
    s.cycle = s.unknownOpcode op := by
  rw [State.cycle, h]

theorem State.cycle_of_fetch {s : State} {i : Instr} (h : s.fetch = .ok i) : s.cycle = exec i s := by
  rw [State.cycle, h]

theorem step_unknown {s : State} (hrun : s.runState = .running) (hpc : s.pc < 256)
    (hop : lookupOpcode (s.mem.read s.pc) = none) : step s = s.unknownOpcode (s.mem.read s.pc) := by
  rw [step_running hrun, State.cycle_unknownOpcode (State.fetch_unknown hpc hop)]

/-! ### The cycle as the rule that reads its own operand bytes (R80, R103, R109) -/

theorem State.memRead_cases (s : State) (a : Nat) :
    (∃ b, s.memRead a = .ok b) ∨ s.memRead a = .error (.invalidAddress a) := by
  rcases Nat.lt_or_ge a 256 with h | h
  · exact .inl ⟨_, s.memRead_of_lt h⟩
  · exact .inr (s.memRead_of_ge h)

/-- An instruction of one operand byte: reading the byte in the fetch or in the instruction's rule is the same. -/
theorem State.cycle_f1r {s : State} {make : Byte → Instr} {op : Byte} {rule : Byte → Except CoreError State}
    (hfetch : s.fetch = s.readOperandBytes (.f1r make)) (hexec : ∀ ra, exec (make ra) s = s.endCycle op (rule ra)) :
    s.cycle = s.endCycle op (s.memRead (s.pc + 1) >>= rule) := by
  rcases s.memRead_cases (s.pc + 1) with ⟨ra, h₁⟩ | h₁ <;>
    simp only [State.readOperandBytes, h₁, except_ok_bind, except_error_bind, except_pure] at hfetch
  · rw [State.cycle_of_fetch hfetch, hexec, h₁, except_ok_bind]
  · rw [State.cycle_invalidAddress hfetch, h₁, except_error_bind, State.endCycle_error]

/-- The same for two operand bytes, read one after the other. -/
theorem State.cycle_f2 {s : State} {make : Byte → Byte → Instr} {op : Byte}
    {rule : Byte → Byte → Except CoreError State} (hfetch : s.fetch = s.readOperandBytes (.f2rr make))
    (hexec : ∀ b₁ b₂, exec (make b₁ b₂) s = s.endCycle op (rule b₁ b₂)) :
    s.cycle = s.endCycle op (s.memRead (s.pc + 1) >>= fun b₁ => s.memRead (s.pc + 2) >>= rule b₁) := by
  rcases s.memRead_cases (s.pc + 1) with ⟨b₁, h₁⟩ | h₁
  · rcases s.memRead_cases (s.pc + 2) with ⟨b₂, h₂⟩ | h₂ <;>
      simp only [State.readOperandBytes, h₁, h₂, except_ok_bind, except_error_bind, except_pure] at hfetch
    · rw [State.cycle_of_fetch hfetch, hexec, h₁, except_ok_bind, h₂, except_ok_bind]
    · rw [State.cycle_invalidAddress hfetch, h₁, except_ok_bind, h₂, except_error_bind, State.endCycle_error]
  · simp only [State.readOperandBytes, h₁, except_error_bind] at hfetch
    rw [State.cycle_invalidAddress hfetch, h₁, except_error_bind, State.endCycle_error]

/-- The cycle of a known opcode is the pseudocode's rule for it and the end of the cycle. -/
theorem State.cycle_of_opcode (s : State) (hpc : s.pc < 256) :
    (s.mem.read s.pc = Opcode.halt → s.cycle = s.endCycle Opcode.halt (Pseudocode.halt s)) ∧
    (s.mem.read s.pc = Opcode.push → s.cycle = s.endCycle Opcode.push (Pseudocode.push s)) ∧
    (s.mem.read s.pc = Opcode.pop → s.cycle = s.endCycle Opcode.pop (Pseudocode.pop s)) ∧
    (s.mem.read s.pc = Opcode.prn → s.cycle = s.endCycle Opcode.prn (Pseudocode.prn s)) ∧
    (s.mem.read s.pc = Opcode.ldi → s.cycle = s.endCycle Opcode.ldi (Pseudocode.ldi s)) ∧
    (s.mem.read s.pc = Opcode.mult → s.cycle = s.endCycle Opcode.mult (Pseudocode.mult s)) := by
  obtain ⟨hhalt, hpush, hpop, hprn, hldi, hmult, _⟩ := s.fetch_of_opcode hpc
  exact ⟨fun h => State.cycle_of_fetch (hhalt h), fun h => State.cycle_f1r (hpush h) fun _ => rfl,
    fun h => State.cycle_f1r (hpop h) fun _ => rfl, fun h => State.cycle_f1r (hprn h) fun _ => rfl,
    fun h => State.cycle_f2 (hldi h) fun _ _ => rfl, fun h => State.cycle_f2 (hmult h) fun _ _ => rfl⟩

/-! ### The pseudocode's cycle (R111) -/

/-- The end of a cycle does what `Cycle()` does with the rule's answer. -/
theorem endCycle_eq_pseudocode {s : State} {op : Byte} {r : Except CoreError State} (hpc : s.pc < 256)
    (h : Pseudocode.afterFetch s (s.mem.read s.pc) = r.map (·.advance op)) :
    s.endCycle op r = .next (Pseudocode.cycle s) := by
  rw [Pseudocode.cycle, s.memRead_of_lt hpc, except_ok_bind, h]
  cases r <;> rfl

/-- No line of the pseudocode's table takes a byte that has no row: what is left is the policy. -/
theorem afterFetch_unknown (s : State) {op : Byte} (h : lookupOpcode op = none) :
    (s.policy = .strictFault → Pseudocode.afterFetch s op = .error (.unknownOpcode op)) ∧
    (s.policy = .legacySkip → Pseudocode.afterFetch s op = .ok { s with pc := s.pc + 1 }) := by
  have hhalt : op ≠ 0x01 := ne_of_lookupOpcode_eq_none h lookupOpcode_halt
  have hpush : op ≠ 0x45 := ne_of_lookupOpcode_eq_none h lookupOpcode_push
  have hpop : op ≠ 0x46 := ne_of_lookupOpcode_eq_none h lookupOpcode_pop
  have hprn : op ≠ 0x47 := ne_of_lookupOpcode_eq_none h lookupOpcode_prn
  have hldi : op ≠ 0x82 := ne_of_lookupOpcode_eq_none h lookupOpcode_ldi
  have hmult : op ≠ 0xA2 := ne_of_lookupOpcode_eq_none h lookupOpcode_mult
  rw [Pseudocode.afterFetch, if_neg hhalt, if_neg hpush, if_neg hpop, if_neg hprn, if_neg hldi, if_neg hmult]
  exact ⟨fun hp => by rw [hp], fun hp => by rw [hp]⟩

theorem unknownOpcode_eq_pseudocode {s : State} (hpc : s.pc < 256) (h : lookupOpcode (s.mem.read s.pc) = none) :
    s.unknownOpcode (s.mem.read s.pc) = .next (Pseudocode.cycle s) := by
  obtain ⟨hstrict, hlegacy⟩ := afterFetch_unknown s h
  rw [Pseudocode.cycle, s.memRead_of_lt hpc, except_ok_bind]
  rcases s.unknownOpcode_cases (s.mem.read s.pc) with ⟨hp, hu⟩ | ⟨hp, hu⟩
  · rw [hu, hstrict hp]
  · rw [hu, hlegacy hp]

theorem State.cycle_eq_pseudocode (s : State) : s.cycle = .next (Pseudocode.cycle s) := by
  rcases Nat.lt_or_ge s.pc 256 with hpc | hpc
  · obtain ⟨hhalt, hpush, hpop, hprn, hldi, hmult⟩ := s.cycle_of_opcode hpc
    rcases lookupOpcode_cases (s.mem.read s.pc) with h | h | h | h | h | h | h
    · rw [hhalt h]
      exact endCycle_eq_pseudocode hpc (by rw [h]; rfl)
    · rw [hpush h]
      exact endCycle_eq_pseudocode hpc (by rw [h]; rfl)
    · rw [hpop h]
      exact endCycle_eq_pseudocode hpc (by rw [h]; rfl)
    · rw [hprn h]
      exact endCycle_eq_pseudocode hpc (by rw [h]; rfl)
    · rw [hldi h]
      exact endCycle_eq_pseudocode hpc (by rw [h]; rfl)
    · rw [hmult h]
      exact endCycle_eq_pseudocode hpc (by rw [h]; rfl)
    · rw [State.cycle_unknownOpcode (State.fetch_unknown hpc h)]
      exact unknownOpcode_eq_pseudocode hpc h
  · rw [State.cycle_invalidAddress (State.fetch_of_ge hpc), Pseudocode.cycle, s.memRead_of_ge hpc, except_error_bind]

/-! ### The statements about the step -/

/-- Settles O10: the checks of an access compare the address itself, and the fetch at `pc` is such an access. -/
theorem addressesOutsideMemoryRaise : Obligations.AddressesOutsideMemoryRaise :=
  ⟨fun s _ ha => s.memRead_of_lt (Nat.lt_succ_of_le ha), fun s _ ha => s.memRead_of_ge ha,
    fun s _ v ha => s.memWrite_of_ge v ha, fun _ hrun hpc =>
      (step_running hrun).trans (State.cycle_invalidAddress (State.fetch_of_ge hpc))⟩

/-- Settles O12: the fetch gives the decoded instruction. -/
theorem stepRunsTheDecodedInstruction : Obligations.StepRunsTheDecodedInstruction := fun _ _ _ hrun hdecode =>
  step_of_fetch hrun (State.fetch_of_decode hdecode)

/-- Settles O13: the fetch window begins with the encoding, which the decoder reads back. -/
theorem stepRunsTheEncodingInMemory : Obligations.StepRunsTheEncodingInMemory := fun _ _ hrun hle hbytes =>
  step_of_fetch hrun (State.fetch_of_bytesAt (State.bytesAt_of_reads hle hbytes))

/-- Settles O14: for each opcode, reading the operand bytes in the fetch and in the instruction's own rule is the
same, and a raise gives the state before in both. -/
theorem cycleFollowsThePseudocode : Obligations.CycleFollowsThePseudocode := fun s hrun => by
  rw [step_running hrun, s.cycle_eq_pseudocode]

/-- Settles O15: a cycle always answers a next state, and the two final run states have no cycle. -/
theorem onlyARunningCoreSteps : Obligations.OnlyARunningCoreSteps := fun s =>
  ⟨⟨fun ⟨_, h⟩ => (step_next h).1, fun h => ⟨_, cycleFollowsThePseudocode s h⟩⟩,
    fun h => by rw [step, h], fun h => by rw [step, h]⟩

/-- Settles O16: the fetch meets the byte as unknown, and the policy makes it an error. -/
theorem unknownOpcodeFaultsWhenStrict : Obligations.UnknownOpcodeFaultsWhenStrict := fun s hrun hpc hop hpolicy => by
  rw [step_unknown hrun hpc hop, State.unknownOpcode, hpolicy]

/-- Settles O17: the fetch meets the byte as unknown, and the policy skips it. -/
theorem unknownOpcodeIsSkippedWhenLegacy : Obligations.UnknownOpcodeIsSkippedWhenLegacy :=
  fun s hrun hpc hop hpolicy => by rw [step_unknown hrun hpc hop, State.unknownOpcode, hpolicy]

/-! ### One cycle of each instruction -/

/-- A step at an opcode with one operand byte: the byte is missing at the end of memory, or the instruction runs. -/
theorem step_f1r {s : State} {make : Byte → Instr} (hrun : s.runState = .running)
    (hfetch : s.fetch = s.readOperandBytes (.f1r make)) :
    step s = if 256 ≤ s.pc + 1 then .next (s.raise (.invalidAddress (s.pc + 1)))
      else exec (make (s.mem.read (s.pc + 1))) s := by
  rw [step_running hrun]
  split_ifs with h₁
  · exact State.cycle_invalidAddress (by rw [hfetch, State.readOperandBytes, s.memRead_of_ge h₁, except_error_bind])
  · exact State.cycle_of_fetch (by
      rw [hfetch, State.readOperandBytes, s.memRead_of_lt (Nat.not_le.mp h₁), except_ok_bind, except_pure])

/-- A step at an opcode with two operand bytes: the first or the second is missing, or the instruction runs. -/
theorem step_f2 {s : State} {make : Byte → Byte → Instr} (hrun : s.runState = .running)
    (hfetch : s.fetch = s.readOperandBytes (.f2rr make)) :
    step s = if 256 ≤ s.pc + 1 then .next (s.raise (.invalidAddress (s.pc + 1)))
      else if 256 ≤ s.pc + 2 then .next (s.raise (.invalidAddress (s.pc + 2)))
      else exec (make (s.mem.read (s.pc + 1)) (s.mem.read (s.pc + 2))) s := by
  rw [step_running hrun]
  split_ifs with h₁ h₂
  · exact State.cycle_invalidAddress (by rw [hfetch, State.readOperandBytes, s.memRead_of_ge h₁, except_error_bind])
  · exact State.cycle_invalidAddress (by
      rw [hfetch, State.readOperandBytes, s.memRead_of_lt (Nat.not_le.mp h₁), except_ok_bind, s.memRead_of_ge h₂,
        except_error_bind])
  · exact State.cycle_of_fetch (by
      rw [hfetch, State.readOperandBytes, s.memRead_of_lt (Nat.not_le.mp h₁), except_ok_bind,
        s.memRead_of_lt (Nat.not_le.mp h₂), except_ok_bind, except_pure])

/-- Settles O18: the two operand bytes come first, then the register. -/
theorem ldiCycle : Obligations.LdiCycle := by
  intro s hrun hpc hop
  obtain ⟨_, _, _, _, hfetch, _⟩ := s.fetch_of_opcode hpc
  rw [step_f2 hrun (hfetch hop)]
  split_ifs with h₁ h₂ h
  · rfl
  · rfl
  · exact exec_ldi _ s h
  · exact exec_ldi_invalid _ s (Nat.not_lt.mp h)

/-- Settles O19: the operand byte comes first, then the register. -/
theorem prnCycle : Obligations.PrnCycle := by
  intro s hrun hpc hop
  obtain ⟨_, _, _, hfetch, _⟩ := s.fetch_of_opcode hpc
  rw [step_f1r hrun (hfetch hop)]
  split_ifs with h₁ h
  · rfl
  · exact exec_prn s h
  · exact exec_prn_invalid s (Nat.not_lt.mp h)

/-- Settles O20: the two operand bytes come first, then the first register, then the second. -/
theorem multCycle : Obligations.MultCycle := by
  intro s hrun hpc hop
  obtain ⟨_, _, _, _, _, hfetch, _⟩ := s.fetch_of_opcode hpc
  rw [step_f2 hrun (hfetch hop)]
  split_ifs with h₁ h₂ ha hb
  · rfl
  · rfl
  · exact exec_mult s ha hb
  · exact exec_mult_invalid_right s ha (Nat.not_lt.mp hb)
  · exact exec_mult_invalid_left _ s (Nat.not_lt.mp ha)

/-- Settles O21: the effect of PUSH is the stated one by the value of the decremented stack pointer, and a raise keeps
nothing of it. -/
theorem pushCycle : Obligations.PushCycle := by
  intro s hrun hpc hop
  obtain ⟨_, hfetch, _⟩ := s.fetch_of_opcode hpc
  rw [step_f1r hrun (hfetch hop)]
  dsimp only
  split_ifs with h₁ h
  · rfl
  · rw [exec_push s h, State.pushed, spDecremented_eq]
    rfl
  · exact exec_push_invalid s (Nat.not_lt.mp h)

/-- Settles O22: the effect of POP is the stated one by the value of the incremented stack pointer, read after the
popped byte is written. -/
theorem popCycle : Obligations.PopCycle := by
  intro s hrun hpc hop
  obtain ⟨_, _, hfetch, _⟩ := s.fetch_of_opcode hpc
  rw [step_f1r hrun (hfetch hop)]
  split_ifs with h₁ h
  · rfl
  · rw [exec_pop s h, State.popped, spIncremented_eq]
    rfl
  · exact exec_pop_invalid s (Nat.not_lt.mp h)

end Machine
end Sys2Proof
end

section
/-! SUPPORT. The statements about frames: what each instruction leaves unchanged, read off everything that `exec` can
answer. -/

namespace Sys2Proof
namespace Machine

/-- A register is another one than the operand's when their numbers differ. -/
theorem State.getReg_setReg_of_val_ne (s : State) {ra : Byte} (h : ra.toNat < 8) (v : Byte) {q : Fin 8}
    (hq : q.val ≠ ra.toNat) : (s.setReg ⟨ra.toNat, h⟩ v).getReg q = s.getReg q :=
  s.getReg_setReg_ne (fun e => hq (congrArg Fin.val e)) v

theorem State.getReg_popped_of_val_ne (s : State) {ra : Byte} (h : ra.toNat < 8) {q : Fin 8} (h7 : q ≠ 7)
    (hq : q.val ≠ ra.toNat) : (s.popped ⟨ra.toNat, h⟩).getReg q = s.getReg q := by
  rw [s.getReg_popped_of_ne _ h7, if_neg fun e => hq (congrArg Fin.val e)]

theorem State.read_pushed_of_ne (s : State) (r : Fin 8) {a : Nat} (h : a ≠ s.pushAddress) :
    (s.pushed r).mem.read a = s.mem.read a := by
  rw [State.pushAddress_eq] at h
  rw [State.pushed_mem, Memory.read_write_ne _ _ h]

/-! ### The statements -/

/-- Settles O32: LDI and MULT write their first operand's register and nothing else but `pc`, or raise. -/
theorem ldiAndMultFrame : Obligations.LdiAndMultFrame := by
  intro i ra b s t hi hexec
  have hanswers := ExecAnswers.of_exec hexec
  rcases hi with rfl | rfl
  · cases hanswers with
    | ldi imm h =>
      exact ⟨fun q hq => s.getReg_setReg_of_val_ne h _ hq, fun _ => rfl, rfl, rfl, fun _ => ⟨rfl, rfl⟩⟩
    | raise hi hb => exact ⟨fun _ _ => rfl, fun _ => rfl, rfl, rfl, fun hw => by simp [hi] at hw⟩
  · cases hanswers with
    | mult product ha hb =>
      exact ⟨fun q hq => s.getReg_setReg_of_val_ne ha _ hq, fun _ => rfl, rfl, rfl, fun _ => ⟨rfl, rfl⟩⟩
    | raise hi hb => exact ⟨fun _ _ => rfl, fun _ => rfl, rfl, rfl, fun hw => by simp [hi] at hw⟩

/-- Settles O33: PRN appends to the output or raises, and HALT writes the run state. -/
theorem prnAndHaltFrame : Obligations.PrnAndHaltFrame := by
  refine fun s t => ⟨fun ra hexec => ?_, fun hexec => ?_⟩
  · cases ExecAnswers.of_exec hexec with
    | prn h => exact ⟨fun _ => rfl, fun _ => rfl, rfl, ⟨_, .inr rfl⟩, fun _ => ⟨rfl, rfl⟩⟩
    | raise hi hb =>
      refine ⟨fun _ => rfl, fun _ => rfl, rfl, ⟨0, .inl rfl⟩, fun h => ?_⟩
      cases hi.symm.trans (namesRegister_iff.mpr h)
  · cases ExecAnswers.of_exec hexec with
    | halt => exact ⟨fun _ => rfl, fun _ => rfl, rfl, rfl, rfl⟩
    | raise hi hb => cases hi

/-- Settles O34: PUSH writes R7 and the cell at its address, or raises. -/
theorem pushFrame : Obligations.PushFrame := by
  intro ra s t hexec
  cases ExecAnswers.of_exec hexec with
  | push h =>
    refine ⟨fun q hq => ?_, fun a ha b hb => s.read_pushed_of_ne _ (ha ▸ hb), rfl, rfl, fun _ => ⟨rfl, rfl⟩⟩
    rw [State.getReg_advance, State.getReg_pushed, if_neg hq]
  | raise hi hb =>
    refine ⟨fun _ _ => rfl, fun _ _ _ _ => rfl, rfl, rfl, fun h => ?_⟩
    cases hi.symm.trans (namesRegister_iff.mpr h)

/-- Settles O35: POP writes its operand's register and R7, or raises. -/
theorem popFrame : Obligations.PopFrame := by
  intro ra s t hexec
  cases ExecAnswers.of_exec hexec with
  | pop h =>
    exact ⟨fun q h7 hq => s.getReg_popped_of_val_ne h h7 hq, fun _ => rfl, rfl, rfl, fun _ => ⟨rfl, rfl⟩⟩
  | raise hi hb =>
    refine ⟨fun _ _ _ => rfl, fun _ => rfl, rfl, rfl, fun h => ?_⟩
    cases hi.symm.trans (namesRegister_iff.mpr h)

end Machine
end Sys2Proof
end

section
/-! SUPPORT. The statements about the whole machine: what one step can change, the invariant, and the end of every
run. -/

namespace Sys2Proof
namespace Machine

/-! ### Everything a step can do -/

/-- The states that a step from `s` can give: what the fetched instruction answers, the error of a fetch that gives no
instruction, or an unknown opcode skipped. -/
inductive StepGives (s : State) : State → Prop
  | exec {i : Instr} {t : State} (hfetch : s.fetch = .ok i) (hexec : exec i s = .next t) : StepGives s t
  | raise {e : CoreError} (hfetch : s.fetch = .error e) (he : s.pc ≤ 256 → e.PossibleIn s) : StepGives s (s.raise e)
  | skip {e : CoreError} (hfetch : s.fetch = .error e) (hpc : s.pc < 256) : StepGives s { s with pc := s.pc + 1 }

theorem StepGives.of_step {s t : State} (h : step s = .next t) : StepGives s t := by
  obtain ⟨_, ⟨i, hfetch, hexec⟩ | ⟨a, hfetch, ha, rfl⟩ | ⟨op, hfetch, hpc, hop, hl, hu⟩⟩ := step_cases h
  · exact .exec hfetch hexec
  · exact .raise hfetch ha
  · rcases s.unknownOpcode_cases op with ⟨hp, hraise⟩ | ⟨_, hskip⟩
    · cases hraise.symm.trans hu
      exact .raise hfetch fun _ => ⟨hp, hpc, hop, hl⟩
    · cases hskip.symm.trans hu
      exact .skip hfetch hpc

/-- A fetched instruction ends inside memory. -/
theorem State.fetch_pc_le {s : State} {i : Instr} (h : s.fetch = .ok i) : s.pc + operandCount i.opcode + 1 ≤ 256 := by
  obtain ⟨_, _, _, hle, _⟩ := fetchedInstructionLiesAtPc s i h
  rwa [encode_length] at hle

/-- HALT alone halts, whether an instruction completes or raises. -/
theorem ExecAnswers.halted_iff {s t : State} {i : Instr} (h : ExecAnswers s i t) (hs : s.runState = .running) :
    t.runState = .halted ↔ i = .halt := by
  cases h with
  | halt => exact iff_of_true rfl rfl
  | raise hi hb => exact iff_of_false nofun (by rintro rfl; cases hi)
  | push _ | pop _ | prn _ | ldi _ _ | mult _ _ _ => simp [hs]

theorem not_lt_of_wellFormed_prn {ra : Byte} (h : (Instr.prn ra).wellFormed = false) : ¬ra.toNat < 8 := fun hlt => by
  cases h.symm.trans (namesRegister_iff.mpr hlt)

/-! ### What a step changes -/

/-- Settles O40: a fault leaves `pc`, a completed instruction advances it by its length, which lies inside memory, and
a skip by one from inside memory. -/
theorem pcNeverGoesBack : Obligations.PcNeverGoesBack := by
  refine fun s t hstep => ⟨fun hfault => ?_, fun hfault => ?_⟩
  · obtain ⟨a, rfl, _⟩ | ⟨b, rfl, _⟩ | ⟨op, rfl, _⟩ := step_faulted_cases hstep hfault <;> rfl
  · cases StepGives.of_step hstep with
    | exec hfetch hexec =>
      have hpc := exec_pc hexec hfault
      have hle := State.fetch_pc_le hfetch
      omega
    | raise hfetch he => exact absurd rfl hfault
    | skip hfetch hpc => exact ⟨Nat.lt_succ_self _, hpc⟩

/-- Settles O42: of the answers of an instruction only PRN's has another output. -/
theorem onlyPrnWritesTheOutput : Obligations.OnlyPrnWritesTheOutput := by
  intro s t hstep
  cases StepGives.of_step hstep with
  | raise hfetch he => rw [hfetch]; rfl
  | skip hfetch hpc => rw [hfetch]
  | @exec i _ hfetch hexec =>
    rw [hfetch]
    cases ExecAnswers.of_exec hexec with
    | prn h =>
      dsimp only
      rw [dif_pos h]
      rfl
    | raise hi hb =>
      cases i with
      | prn ra =>
        dsimp only
        rw [dif_neg (not_lt_of_wellFormed_prn hi), State.raise_output]
      | _ => rfl
    | _ => rfl

/-- Settles O43: of the answers of an instruction only PUSH's has another memory, at its address. -/
theorem onlyPushWritesMemory : Obligations.OnlyPushWritesMemory := by
  intro s t a hstep hne
  cases StepGives.of_step hstep with
  | raise hfetch he => exact absurd rfl hne
  | skip hfetch hpc => exact absurd rfl hne
  | exec hfetch hexec =>
    cases ExecAnswers.of_exec hexec with
    | push h => exact ⟨_, hfetch, h, by_contra fun ha => hne (s.read_pushed_of_ne _ ha)⟩
    | _ => exact absurd rfl hne

/-- Settles O44: an answer has another value in a register only where the instruction writes one. -/
theorem registersChangeOnlyAsTheTableSays : Obligations.RegistersChangeOnlyAsTheTableSays := by
  intro s t q hstep hne
  cases StepGives.of_step hstep with
  | raise hfetch he => exact absurd rfl hne
  | skip hfetch hpc => exact absurd rfl hne
  | exec hfetch hexec =>
    cases ExecAnswers.of_exec hexec with
    | ldi imm h =>
      exact .inl ⟨_, _, hfetch, by_contra fun hq => hne (s.getReg_setReg_of_val_ne h _ hq)⟩
    | mult product ha hb =>
      exact .inr (.inl ⟨_, _, hfetch, by_contra fun hq => hne (s.getReg_setReg_of_val_ne ha _ hq)⟩)
    | push h =>
      refine .inr (.inr (.inl ⟨_, hfetch, by_contra fun h7 => hne ?_⟩))
      rw [State.getReg_advance, State.getReg_pushed, if_neg h7]
    | pop h =>
      refine .inr (.inr (.inr ⟨_, hfetch, or_iff_not_imp_right.mpr fun h7 => by_contra fun hq => hne ?_⟩))
      exact s.getReg_popped_of_val_ne h h7 hq
    | _ => exact absurd rfl hne

/-- Settles O45: a step without an instruction does not halt, and of the instructions HALT alone does. -/
theorem onlyHaltHalts : Obligations.OnlyHaltHalts := by
  intro s t hstep
  have hrun := (step_next hstep).1
  cases StepGives.of_step hstep with
  | exec hfetch hexec => simp [(ExecAnswers.of_exec hexec).halted_iff hrun, hfetch]
  | raise hfetch he => exact iff_of_false nofun (by simp [hfetch])
  | skip hfetch hpc => exact iff_of_false (by simp [hrun]) (by simp [hfetch])

/-- Settles O46: each of the three errors that a step can raise is taken in the state before. -/
theorem faultsArePrecise : Obligations.FaultsArePrecise := by
  intro s t hstep hfault
  obtain ⟨a, rfl, ha⟩ | ⟨b, rfl, hb⟩ | ⟨op, rfl, hop⟩ := step_faulted_cases hstep hfault
  · exact ⟨_, rfl, ha⟩
  · exact ⟨_, rfl, fun _ => hb⟩
  · exact ⟨_, rfl, fun _ => hop⟩

/-- Settles O47: no effect, no raise and no skip writes the policy. -/
theorem configurationNeverChanges : Obligations.ConfigurationNeverChanges := by
  intro s t hstep
  cases StepGives.of_step hstep with
  | exec hfetch hexec => cases ExecAnswers.of_exec hexec <;> rfl
  | raise hfetch he => rfl
  | skip hfetch hpc => rfl

/-! ### The invariant -/

theorem State.Inv.of_running {s : State} (hrun : s.runState = .running) (hmem : s.mem.wf = true) (hpc : s.pc ≤ 256)
    (hrecord : s.faultRecord = none) : s.Inv where
  mem_wf := hmem
  pc_le := hpc
  record_iff := by simp [hrun, hrecord]
  record_ok := by simp [hrecord]
  halted_after_halt := by simp [hrun]

theorem State.Inv.raise {s : State} (hs : s.Inv) {e : CoreError} (he : e.PossibleIn s) : (s.raise e).Inv where
  mem_wf := hs.mem_wf
  pc_le := hs.pc_le
  record_iff := iff_of_true rfl rfl
  record_ok := by
    rintro r ⟨⟩
    exact ⟨rfl, by cases e <;> exact he⟩
  halted_after_halt := nofun

theorem State.Inv.faultRecord_eq_none {s : State} (hs : s.Inv) (hrun : s.runState = .running) :
    s.faultRecord = none := by
  have h := hs.record_iff
  simpa [hrun] using h

/-- A HALT that was fetched at `pc` is the byte before the one where the halted core stands. -/
theorem State.Inv.halt {s : State} (hs : s.Inv) (hrun : s.runState = .running) (hfetch : s.fetch = .ok .halt) :
    (s.halt.advance Opcode.halt).Inv where
  mem_wf := hs.mem_wf
  pc_le := by simpa [Instr.opcode] using State.fetch_pc_le hfetch
  record_iff := by simp [hs.faultRecord_eq_none hrun]
  record_ok := by simp [hs.faultRecord_eq_none hrun]
  halted_after_halt := fun _ => ⟨by simp, by simpa [Instr.opcode] using State.fetch_opcode hfetch⟩

/-- Settles O48: the reset state is running with empty memory. -/
theorem resetMeetsTheInvariant : Obligations.ResetMeetsTheInvariant :=
  .of_running rfl State.reset_mem_wf (Nat.zero_le _) rfl

/-- Settles O49: a launch is running, and the load of the image keeps memory canonical. -/
theorem launchMeetsTheInvariant : Obligations.LaunchMeetsTheInvariant := by
  intro policy regInit image s h
  rw [State.launch, Option.ite_none_right_eq_some] at h
  obtain ⟨_, h⟩ := h
  cases h
  exact .of_running rfl (Memory.wf_load 0 image rfl) (Nat.zero_le _) rfl

/-- Settles O50: a state after a completed instruction other than HALT is running with canonical memory and an empty
record; a raise keeps all but the record, whose error the state admits; HALT is one byte long. -/
theorem everyStepKeepsTheInvariant : Obligations.EveryStepKeepsTheInvariant := by
  intro s t hs hstep
  have hrun := (step_next hstep).1
  have hrecord := hs.faultRecord_eq_none hrun
  cases StepGives.of_step hstep with
  | raise hfetch he => exact hs.raise (he hs.pc_le)
  | skip hfetch hpc => exact .of_running hrun hs.mem_wf hpc hrecord
  | exec hfetch hexec =>
    have hpc := State.fetch_pc_le hfetch
    cases ExecAnswers.of_exec hexec with
    | halt => exact hs.halt hrun hfetch
    | push h => exact .of_running hrun (Memory.wf_write _ hs.mem_wf (BitVec.isLt _)) hpc hrecord
    | raise hi hb => exact hs.raise hb
    | _ => exact .of_running hrun hs.mem_wf hpc hrecord

/-! ### The end of a run (R112) -/

theorem run_succ {s t : core.State} (h : core.step s = .next t) (k : Nat) : core.run (k + 1) s = core.run k t := by
  rw [Host.Core.run, h]

/-- Settles O41, by recursion on the bytes between `pc` and the end of memory: a step that leaves the core running has
moved `pc` forward. -/
theorem everyRunEnds : Obligations.EveryRunEnds := by
  intro s hrun hpc
  have hstep := cycleFollowsThePseudocode s hrun
  generalize Pseudocode.cycle s = t at hstep
  by_cases ht : t.runState = .running
  · obtain ⟨hlt, hle⟩ := (pcNeverGoesBack s t hstep).2 (by simp [ht])
    obtain ⟨k, hk, u, hu, hend⟩ := everyRunEnds t ht hle
    exact ⟨k + 1, by omega, u, (run_succ hstep k).trans hu, hend⟩
  · exact ⟨1, by omega, t, run_succ hstep 0, ht⟩
termination_by s => 257 - s.pc

end Machine
end Sys2Proof
end

section
/-! SUPPORT. The statements about the stack (spec/43_stack.md R142): PUSH and POP of registers that exist, one after
another, and a pushed byte that is fetched (spec/20_memory.md R63). -/

namespace Sys2Proof
namespace Machine

/-! ### Stack pointer arithmetic (R26) -/

@[simp] theorem spIncremented_spDecremented (v : Byte) : spIncremented (spDecremented v) = v := by
  simp [spIncremented, spDecremented, BitVec.add_assoc]

theorem toNat_spDecremented (v : Byte) : (spDecremented v).toNat = (v.toNat + 255) % 256 :=
  BitVec.toNat_add v 255

theorem toNat_spIncremented (v : Byte) : (spIncremented v).toNat = (v.toNat + 1) % 256 :=
  BitVec.toNat_add v 1

/-! ### PUSH and POP of a register by its number -/

theorem exec_push_register (r : Fin 8) (s : State) :
    exec (.push (BitVec.ofNat 8 r.val)) s = .next ((s.pushed r).advance Opcode.push) := by
  have h := toNat_ofNat_register r
  rw [exec_push s (h.trans_lt r.isLt)]
  simp only [h]

theorem exec_pop_register (r : Fin 8) (s : State) :
    exec (.pop (BitVec.ofNat 8 r.val)) s = .next ((s.popped r).advance Opcode.pop) := by
  have h := toNat_ofNat_register r
  rw [exec_pop s (h.trans_lt r.isLt)]
  simp only [h]

/-- The cell at the stack pointer after a PUSH holds the register, as it stands after the decrement. -/
theorem State.read_pushed_sp (s : State) (r : Fin 8) :
    (s.pushed r).mem.read (spDecremented s.sp).toNat = if r = 7 then spDecremented s.sp else s.getReg r := by
  rw [State.pushed_mem, Memory.read_write_self, State.getReg_setSp]

theorem castSucc_ne_seven (r : Fin 7) : r.castSucc ≠ 7 := Fin.castSucc_ne_last r

/-! ### Instructions one after another -/

theorem execAll_cons {i : Instr} {s t : State} (h : exec i s = .next t) (is : List Instr) :
    execAll (i :: is) s = execAll is t := by
  rw [execAll, h]

theorem execAll_append {is : List Instr} {s t : State} (h : execAll is s = .next t) (js : List Instr) :
    execAll (is ++ js) s = execAll js t := by
  induction is generalizing s with
  | nil =>
    cases h
    rfl
  | cons i is ih =>
    obtain ⟨u, hu, _⟩ := exec_answers i s
    rw [execAll_cons hu] at h
    rw [List.cons_append, execAll_cons hu, ih h]

/-- The PUSHes of some registers, and the POPs of the same registers in the reverse order. -/
def pushesThenPops (rs : List (Fin 7)) : List Instr :=
  (rs.map fun r => .push (BitVec.ofNat 8 r.val)) ++ (rs.reverse.map fun r => .pop (BitVec.ofNat 8 r.val))

/-- The first register pushed is the last one popped. -/
theorem pushesThenPops_cons (r : Fin 7) (rs : List (Fin 7)) : pushesThenPops (r :: rs) =
    .push (BitVec.ofNat 8 r.val) :: (pushesThenPops rs ++ [.pop (BitVec.ofNat 8 r.val)]) := by
  simp [pushesThenPops]

/-- Pushing and popping back restores every register and keeps the cells from the stack pointer up that the pushes do
not reach. -/
theorem execAll_pushesThenPops (rs : List (Fin 7)) (s : State) (hlen : rs.length < 256) :
    ∃ t, execAll (pushesThenPops rs) s = .next t ∧ (∀ q, t.getReg q = s.getReg q) ∧
      ∀ k : Nat, k + rs.length < 256 →
        t.mem.read ((s.sp.toNat + k) % 256) = s.mem.read ((s.sp.toNat + k) % 256) := by
  induction rs generalizing s with
  | nil => exact ⟨s, rfl, fun _ => rfl, fun _ _ => rfl⟩
  | cons r rs ih =>
    rw [List.length_cons] at hlen
    have hr := castSucc_ne_seven r
    have hpush := exec_push_register r.castSucc s
    obtain ⟨t, ht, hregs, hmem⟩ := ih ((s.pushed r.castSucc).advance Opcode.push) (by omega)
    simp only [State.getReg_advance, State.getReg_pushed, State.sp_advance, State.sp_pushed, State.advance_mem,
      toNat_spDecremented] at hregs hmem
    have hsp : t.sp = spDecremented s.sp := hregs 7
    have hvalue : t.mem.read t.sp.toNat = s.getReg r.castSucc := by
      have hcell := hmem 0 (by omega)
      rw [Nat.add_zero, Nat.mod_mod, ← toNat_spDecremented, s.read_pushed_sp, if_neg hr] at hcell
      rw [hsp, hcell]
    refine ⟨(t.popped r.castSucc).advance Opcode.pop, ?_, fun q => ?_, fun k hk => ?_⟩
    · rw [pushesThenPops_cons]
      exact (execAll_cons hpush _).trans
        ((execAll_append ht _).trans (execAll_cons (exec_pop_register r.castSucc t) []))
    · rw [State.getReg_advance]
      by_cases h7 : q = 7
      · subst h7
        rw [← State.sp_eq, State.sp_popped, if_neg hr, hsp, spIncremented_spDecremented, State.sp_eq]
      · rw [t.getReg_popped_of_ne _ h7, hvalue, hregs, if_neg h7]
        split_ifs with hq
        · rw [hq]
        · rfl
    · have hcell := hmem (k + 1) (by rw [List.length_cons] at hk; omega)
      have haddr : ((s.sp.toNat + 255) % 256 + (k + 1)) % 256 = (s.sp.toNat + k) % 256 := by omega
      have hne : (s.sp.toNat + k) % 256 ≠ (spDecremented s.sp).toNat := by
        rw [List.length_cons] at hk
        rw [toNat_spDecremented]
        omega
      rw [haddr, State.pushed_mem, Memory.read_write_ne _ _ hne] at hcell
      exact hcell

/-! ### The statements -/

/-- Settles O51: the POP reads the cell that the PUSH wrote. -/
theorem pushThenPopMovesAValue : Obligations.PushThenPopMovesAValue := by
  intro r q s t u hpush hpop v
  cases (exec_push_register r s).symm.trans hpush
  cases (exec_pop_register q _).symm.trans hpop
  have hvalue : (s.pushed r).mem.read (spDecremented s.sp).toNat = v := s.read_pushed_sp r
  refine ⟨fun hq => ⟨?_, ?_⟩, fun hq => ?_⟩
  · simp [State.getReg_popped_of_ne _ _ hq, hvalue]
  · rw [← State.sp_eq, ← State.sp_eq]
    simp [hq]
  · rw [← State.sp_eq]
    simp [hq, hvalue, spIncremented]

/-- Settles O52, by induction on the list: each PUSH decrements the stack pointer. -/
theorem pushesLowerTheStackPointer : Obligations.PushesLowerTheStackPointer := by
  intro rs
  induction rs with
  | nil => exact fun s => ⟨s, rfl, by simp; omega⟩
  | cons r rs ih =>
    intro s
    obtain ⟨t, ht, hsp⟩ := ih ((s.pushed r).advance Opcode.push)
    refine ⟨t, (execAll_cons (exec_push_register r s) _).trans ht, ?_⟩
    rw [hsp, State.getReg_advance, State.getReg_pushed, if_pos rfl, toNat_spDecremented, State.sp_eq, List.length_cons]
    omega

/-- Settles O53, by induction on the list: each POP of another register than R7 increments the stack pointer. -/
theorem popsRaiseTheStackPointer : Obligations.PopsRaiseTheStackPointer := by
  intro rs
  induction rs with
  | nil => exact fun s => ⟨s, rfl, by simp; omega⟩
  | cons r rs ih =>
    intro s
    obtain ⟨t, ht, hsp⟩ := ih ((s.popped r.castSucc).advance Opcode.pop)
    refine ⟨t, (execAll_cons (exec_pop_register r.castSucc s) _).trans ht, ?_⟩
    rw [hsp, State.getReg_advance, ← State.sp_eq, State.sp_popped, if_neg (castSucc_ne_seven r), toNat_spIncremented,
      State.sp_eq, List.length_cons]
    omega

/-- Settles O54: the registers are the part of `execAll_pushesThenPops` that does not need the memory. -/
theorem stackIsLastInFirstOut : Obligations.StackIsLastInFirstOut := fun rs s hlen => by
  obtain ⟨t, ht, hregs, _⟩ := execAll_pushesThenPops rs s hlen
  exact ⟨t, ht, hregs⟩

/-! ### A pushed byte that is fetched -/

theorem State.fetchWindow_head? {s : State} (h : s.pc < 256) : s.fetchWindow.head? = some (s.mem.read s.pc) := by
  simp [State.fetchWindow, maxLength, State.bytesFrom, s.memRead_of_lt h]

/-- Settles O55: the store was at the address that `pc` then holds, and the fetch reads the same memory. -/
theorem pushedByteIsFetchedNext : Obligations.PushedByteIsFetchedNext := by
  intro s t ra hstep hfetch hrun haddr
  cases ExecAnswers.of_exec (exec_of_step hstep hfetch) with
  | raise hi hb => cases hrun
  | push h =>
    generalize ht : (s.pushed ⟨ra.toNat, h⟩).advance Opcode.push = t at hrun haddr
    rw [State.pushAddress_eq] at haddr
    have hpc : t.pc < 256 := haddr ▸ BitVec.isLt _
    have hread : t.mem.read t.pc = if ra = 7 then s.getReg 7 + 255 else s.getReg ⟨ra.toNat, h⟩ := by
      rw [haddr, ← ht, State.advance_mem, s.read_pushed_sp]
      simp only [register_eq_seven_iff h]
      rfl
    exact ⟨h, t.mem.read t.pc, State.fetchWindow_head? hpc, hread, State.fetch_unknown hpc, State.fetch_halt hpc⟩

end Machine
end Sys2Proof
end

section
/-! SUPPORT. The statements about the host's side (spec/10_state.md R37 to R40; 70_reset_and_hazards.md R193, R194): the
launch, the status and the snapshot. -/

namespace Sys2Proof
namespace Machine

/-- Settles O1: the registers are `REG_INIT` with the stack pointer after it, and the load leaves the rest of memory at
`MEM_FILL`. -/
theorem launchGivesTheResetValues : Obligations.LaunchGivesTheResetValues := by
  intro policy regInit image hlen
  refine ⟨_, if_pos hlen, rfl, rfl, rfl, rfl, rfl, ?_, fun r => ?_, fun a => ?_⟩
  · exact Vector.getElem_push_eq
  · exact Vector.getElem_push_lt r.isLt
  · rw [Memory.read_load]
    have hcover : (0 ≤ a ∧ a < 0 + image.length ∧ a < Config.memSize) ↔ a < image.length := by
      have hsize : Config.memSize = 256 := rfl
      omega
    by_cases ha : a < image.length
    · rw [dif_pos ha, dif_pos (hcover.mpr ha)]
      rfl
    · rw [dif_neg ha, dif_neg (mt hcover.mp ha)]
      rfl

/-- Settles O2: such an image does not fit. -/
theorem longImageStartsNoRun : Obligations.LongImageStartsNoRun := fun _ _ _ hlen => if_neg (Nat.not_le.mpr hlen)

/-- Settles O3: the load of an empty image writes nothing. -/
theorem resetIsTheEmptyLaunch : Obligations.ResetIsTheEmptyLaunch := rfl

/-- Settles O56: the raise writes the record that the status reads. -/
theorem statusReportsTheFault : Obligations.StatusReportsTheFault := fun _ _ _ _ _ => ⟨rfl, rfl, rfl, rfl⟩

/-- Settles O57: the snapshot lists what each address reads as. -/
theorem snapshotShowsTheState : Obligations.SnapshotShowsTheState := fun _ =>
  ⟨rfl, rfl, fun a => Vector.getElem_ofFn a.isLt⟩

end Machine
end Sys2Proof
end
